-- ==== Sys2Proof/Word.lean ====
section
/-! DEFINITION. The word types of the processor and its fixed sets of names (spec 00_scope.md R7; 10_state.md R25,
R26, R32). -/

namespace Sys2Proof

/-- A Word: 32 bits, all arithmetic modulo 2^32 (R7 `WORD_W`, R17). -/
abbrev Word := BitVec 32

/-- A byte of a Block or of the message (R17). -/
abbrev Byte := BitVec 8

/-- A message length in bytes or a byte offset into the message: 61 bits (R8 `LEN_W`, R33, R61). -/
abbrev Length := BitVec 61

/-- The algorithm select `ALG` (R3, R32): one bit, 0 is SHA-1 and 1 is SHA-256. -/
inductive Alg where
  | sha1
  | sha256
deriving DecidableEq, Repr, Inhabited

/-- The phases of register `PH` (R26), in the order of their codes 0 to 7. -/
inductive Phase where
  | init
  | block
  | parse
  | expand
  | load
  | round
  | fold
  | next
deriving DecidableEq, Repr, Inhabited

/-- The Driver's state `ST` (R25): IDLE = 0, PROCESSING = 1, DONE = 2. The value 3 is never taken, so it has no
constructor (log 9). -/
inductive DriverState where
  | idle
  | processing
  | done
deriving DecidableEq, Repr, Inhabited

end Sys2Proof
end

