-- ==== Sys2Proof/Syntax.lean ====
section
/-! DEFINITION. The operations of the processor: one constructor for each of the fifteen rows of
spec/opcode_table.json (30_encoding.md R90 to R97). -/

namespace Sys2Proof

/-- The two host commands (format H, R91 to R93) and the thirteen micro-operations (format U, R96). The three
micro-operations that both algorithms share keep the don't-care bit of their select code as the operand `alg`; no
meaning reads it (log 10). Every other operand is implicit (R91, R97). -/
inductive Instr where
  /-- `HASH.SHA1` (R92, R210) -/
  | hashSha1
  /-- `HASH.SHA256` (R93, R211) -/
  | hashSha256
  /-- `DRV.INIT.SHA1` (R213) -/
  | drvInitSha1
  /-- `DRV.INIT.SHA256` (R214) -/
  | drvInitSha256
  /-- `BB.NEXT` (R160) -/
  | bbNext (alg : Alg)
  /-- `MS.PARSE` (R180) -/
  | msParse (alg : Alg)
  /-- `MS.EXP.SHA1` (R181) -/
  | msExpSha1
  /-- `MS.EXP.SHA256` (R182) -/
  | msExpSha256
  /-- `CP.LOAD.SHA1` (R190) -/
  | cpLoadSha1
  /-- `CP.LOAD.SHA256` (R191) -/
  | cpLoadSha256
  /-- `CP.RND.SHA1` (R192) -/
  | cpRndSha1
  /-- `CP.RND.SHA256` (R193) -/
  | cpRndSha256
  /-- `DRV.FOLD.SHA1` (R215) -/
  | drvFoldSha1
  /-- `DRV.FOLD.SHA256` (R216) -/
  | drvFoldSha256
  /-- `DRV.NEXT` (R217) -/
  | drvNext (alg : Alg)
deriving DecidableEq, Repr

end Sys2Proof
end

