-- ==== Sys2Proof/WellFormed.lean ====
section
/-! DEFINITION. What is well-formed before decoding. An instruction has no operand that could be out of range, so every
term of `Instr` is well-formed; what can be ill-formed is a raw word that does not fit its format (30_encoding.md R90:
both formats have a fixed length). -/

namespace Sys2Proof

/-- Format U has no reserved or illegal code and format H has exactly two commands without operand fields (R91, R96),
so there is nothing to refuse. One line a constructor, so that a new instruction cannot slip past. -/
def Instr.wf : Instr → Bool
  | .hashSha1 => true
  | .hashSha256 => true
  | .drvInitSha1 => true
  | .drvInitSha256 => true
  | .bbNext _ => true
  | .msParse _ => true
  | .msExpSha1 => true
  | .msExpSha256 => true
  | .cpLoadSha1 => true
  | .cpLoadSha256 => true
  | .cpRndSha1 => true
  | .cpRndSha256 => true
  | .drvFoldSha1 => true
  | .drvFoldSha256 => true
  | .drvNext _ => true

/-- A format-U word of the table: a 4-bit select code (R95), which the table gives one byte. -/
def isSelectWord (nbits w : Nat) : Bool := decide (nbits ≤ 8) && decide (w < 16)

/-- A format-H word of the table: a 32-bit command word (R91). -/
def isCommandWord (nbits w : Nat) : Bool := decide (8 < nbits) && decide (nbits ≤ 32) && decide (w < 2 ^ 32)

end Sys2Proof
end

