-- ==== Sys2Proof/Decode.lean ====
section
/-! DEFINITION. Decoding and encoding of the two operation formats (30_encoding.md R90 to R96), total and rejecting by
name. -/

namespace Sys2Proof

/-- What an operation is decoded from: a format-H word written to `CTRL` (R91) or a format-U select code (R95). -/
inductive Code where
  | command (w : Word)
  | select (u : BitVec 4)
deriving DecidableEq, Repr

/-- Why a code names no operation (R94). -/
inductive Reject where
  /-- `START = 0` and the reserved bits are zero: a no-operation (R94). -/
  | startClear
  /-- a bit of 31 to 2 is set: a reserved word (R94). -/
  | reservedBits
deriving DecidableEq, Repr

/-- The bit of `ALG` (R3, R32). -/
def algBit : Alg → BitVec 1
  | .sha1 => 0
  | .sha256 => 1

/-- The algorithm of a bit. -/
def algOfBit (b : Bool) : Alg := if b then .sha256 else .sha1

/-- The code of a phase (R26). -/
def phaseCode : Phase → BitVec 3
  | .init => 0
  | .block => 1
  | .parse => 2
  | .expand => 3
  | .load => 4
  | .round => 5
  | .fold => 6
  | .next => 7

/-- The phase of a code (R26): all eight codes name a phase. -/
def phaseOfCode (c : BitVec 3) : Phase :=
  match c.toNat with
  | 0 => .init
  | 1 => .block
  | 2 => .parse
  | 3 => .expand
  | 4 => .load
  | 5 => .round
  | 6 => .fold
  | _ => .next

/-- The select code `u = ALG ‖ PH`: bit 3 is `ALG`, bits 2 to 0 are `PH` (R95). -/
def selectCode (a : Alg) (p : Phase) : BitVec 4 := algBit a ++ phaseCode p

/-- The `ALG` bit of a select code. -/
def selectAlg (u : BitVec 4) : Alg := algOfBit (u.getLsbD 3)

/-- The `PH` field of a select code. -/
def selectPhase (u : BitVec 4) : Phase := phaseOfCode (u.extractLsb' 0 3)

/-- The table of R96. -/
def microOp : Alg → Phase → Instr
  | .sha1, .init => .drvInitSha1
  | .sha256, .init => .drvInitSha256
  | a, .block => .bbNext a
  | a, .parse => .msParse a
  | .sha1, .expand => .msExpSha1
  | .sha256, .expand => .msExpSha256
  | .sha1, .load => .cpLoadSha1
  | .sha256, .load => .cpLoadSha256
  | .sha1, .round => .cpRndSha1
  | .sha256, .round => .cpRndSha256
  | .sha1, .fold => .drvFoldSha1
  | .sha256, .fold => .drvFoldSha256
  | a, .next => .drvNext a

/-- All sixteen select codes decode to a micro-operation (R96). -/
def decodeSelect (u : BitVec 4) : Instr := microOp (selectAlg u) (selectPhase u)

/-- The two command words decode; every other word is a reserved encoding or a no-operation (R92 to R94). -/
def decodeCommand (w : Word) : Except Reject Instr :=
  if w = 0x00000001 then .ok .hashSha1
  else if w = 0x00000003 then .ok .hashSha256
  else if w >>> 2 = 0 then .error .startClear
  else .error .reservedBits

/-- The decoder. -/
def decode : Code → Except Reject Instr
  | .command w => decodeCommand w
  | .select u => .ok (decodeSelect u)

/-- The encoder, written from R92, R93 and the codes of R96 (the don't-care bit is the operand). -/
def encode : Instr → Code
  | .hashSha1 => .command 0x00000001
  | .hashSha256 => .command 0x00000003
  | .drvInitSha1 => .select 0b0000
  | .drvInitSha256 => .select 0b1000
  | .bbNext a => .select (algBit a ++ 0b001#3)
  | .msParse a => .select (algBit a ++ 0b010#3)
  | .msExpSha1 => .select 0b0011
  | .msExpSha256 => .select 0b1011
  | .cpLoadSha1 => .select 0b0100
  | .cpLoadSha256 => .select 0b1100
  | .cpRndSha1 => .select 0b0101
  | .cpRndSha256 => .select 0b1101
  | .drvFoldSha1 => .select 0b0110
  | .drvFoldSha256 => .select 0b1110
  | .drvNext a => .select (algBit a ++ 0b111#3)

/-- The code that a word of spec/opcode_table.json stands for: rows of 4 bits (one byte) are select codes, rows of 32
bits are command words; a word that fits neither format stands for none. -/
def codeOfTableWord (nbits w : Nat) : Option Code :=
  if isSelectWord nbits w then some (.select (BitVec.ofNat 4 w))
  else if isCommandWord nbits w then some (.command (BitVec.ofNat 32 w))
  else none

/-- The instruction the decoder reads from a word of the table. -/
def decodeTableWord (nbits w : Nat) : Option Instr :=
  match codeOfTableWord nbits w with
  | none => none
  | some c =>
    match decode c with
    | .ok i => some i
    | .error _ => none

end Sys2Proof
end

