-- ==== Sys2Proof/Config.lean ====
section
/-! DEFINITION. The parameters the spec fixes (00_scope.md R7), the parameters it leaves open (R8), and the free
values: opaque constants without a body, which no proof can see. -/

namespace Sys2Proof

/-! ### Parameters fixed by the source (R7) -/

/-- `BLOCK_BYTES` (R7). -/
abbrev Config.blockBytes : Nat := 64

/-- `PAD_LIMIT` (R7): the most remaining message bytes that fit one block with terminator and length. -/
abbrev Config.padLimit : Nat := 55

/-- `TERM_BYTE` (R7). -/
abbrev Config.termByte : Byte := 0x80

/-- `NH` (R7): words of HashState and of the digest. -/
def Config.nh : Alg → Nat
  | .sha1 => 5
  | .sha256 => 8

/-- `NW` (R7): words of the MessageSchedule. -/
def Config.nw : Alg → Nat
  | .sha1 => 80
  | .sha256 => 64

/-- `NR` (R7): rounds per block. -/
def Config.nr : Alg → Nat
  | .sha1 => 80
  | .sha256 => 64

/-! ### Open parameters (R8, U12). No definition of the machine reads one of them: no rule depends on them (log 14). -/

/-- One host access to a register number (R43), as a bus has to carry it. -/
inductive Access where
  | read (reg : Nat)
  | write (reg : Nat) (v : Word)
deriving DecidableEq, Repr

/-- What `CSR_BINDING` leaves open (R8): how register numbers map to a bus address and a bus protocol. -/
structure CsrBinding where
  /-- the bus address of a register number -/
  address : Nat → Nat
  /-- the bus protocol: the transfers, as numbers, by which the bus carries an access -/
  protocol : Access → List Nat
deriving Inhabited

/-- `CSR_BINDING` (R8, R35). -/
opaque Config.csrBinding : CsrBinding

/-- `MSG_BASE`: the platform address of message byte 0, which the processor never sees (R8, R61). -/
opaque Config.msgBase : Nat

/-- `N_INST` is one more than this: at least one instance (R8, R261). -/
opaque Config.furtherInstances : Nat

/-- `DIGEST_BYTE_ORDER`: whether a platform writes the most significant byte of a digest word first (R8, R69). -/
opaque Config.digestMsbFirst : Bool

/-- What `RESET_KIND` leaves open about the reset input (R8, R280). -/
structure ResetKind where
  /-- asynchronous, rather than synchronous -/
  asynchronous : Bool
  /-- the polarity: asserted when the input is 1, rather than when it is 0 -/
  activeHigh : Bool
  /-- the least number of cycles it has to be asserted -/
  minimumDuration : Nat
deriving DecidableEq, Repr, Inhabited

/-- `RESET_KIND` (R8, R280). -/
opaque Config.resetKind : ResetKind

/-- The clock frequency in hertz (R8, R291). -/
opaque Config.clockFrequency : Nat

/-- The cycles that a step takes, by the number of the step (R8, R291). -/
opaque Config.cyclesPerStep : Nat → Nat

/-! ### Free values. The first argument is State's counter `draws`, so that each draw is a fresh value. -/

/-- Word `i` of `H` (0 to 7), `V` (8 to 15) and `W` (16 to 95) after the reset input was asserted (R48, U7; log 2). -/
opaque Config.resetWord : Nat → Nat → Word

/-- Byte `i` of `BLK` after the reset input was asserted (R48, U7; log 2). -/
opaque Config.resetByte : Nat → Nat → Byte

/-- `CUR` after the reset input was asserted (R48, U7; log 2). -/
opaque Config.resetCursor : Nat → Length

/-- `CNS` after the reset input was asserted (R48, U7; log 2). -/
opaque Config.resetConsumed : Nat → BitVec 7

/-- `T` after the reset input was asserted (R48, U7; log 2). -/
opaque Config.resetIndex : Nat → BitVec 7

/-- `FIN` after the reset input was asserted (R48, U7; log 2). -/
opaque Config.resetFin : Nat → Bool

/-- `PH` after the reset input was asserted (R48, U7; log 2). -/
opaque Config.resetPhase : Nat → Phase

/-- Word `i` of `H` at `DONE` when the message was changed during the operation (U3, R73, R285; log 6). -/
opaque Config.changedMessageWord : Nat → Nat → Word

end Sys2Proof
end

