-- ==== Sys2Proof/Machine/State.lean ====
section
/-! DEFINITION. The state of one instance (10_state.md R20), the message memory of its platform (20_memory.md R61), the
reset input (70_reset_and_hazards.md R280) and the pending turns of host, platform and sequencer; the ways a step can
stop; the state after reset (R48). -/

namespace Sys2Proof.Machine

/-- One turn of the schedule: which agent steps next and what it does (R15, R254; log 3). The lines of a host program
(R105) are turns. DESIGN CHOICE: no turn takes a byte away from the message memory, so a byte that the platform makes
readable stays readable; the spec does not say when a platform may refuse one (R71; log 17). -/
inductive Turn where
  /-- the sequencer may take its step, if it has one (R225) -/
  | seq
  /-- the host writes `v` to register `reg` (`WR`, or a command where `reg` is 0) -/
  | write (reg : Nat) (v : Word)
  /-- the host reads register `reg` (`RD`) -/
  | read (reg : Nat)
  /-- the host waits for `DONE` (`WAIT`) -/
  | wait
  /-- the host or the platform writes one byte of message memory (R73, R283) -/
  | store (off : Length) (b : Byte)
  /-- the reset input is asserted (R280) -/
  | assertReset
  /-- the reset input is released (R280) -/
  | releaseReset
deriving DecidableEq, Repr

/-- The message memory: the bytes the platform makes readable, by offset from `MSG_BASE`, in canonical form (offsets
strictly rising). An offset that is not listed has no value (R71, U4; log 5); a store lists it, and nothing takes
it out of the list again (log 17). -/
abbrev Memory := List Host.Cell

/-- The state. The first twelve fields are the complete state of R20, under the spec's names. -/
structure State where
  /-- `H[0..7]`, the HashState (R21) -/
  h : Vector Word 8
  /-- `V[0..7]`, the working variables a to h (R22) -/
  v : Vector Word 8
  /-- `W[0..79]`, the MessageSchedule (R23) -/
  w : Vector Word 80
  /-- `BLK[0..63]`, the Block buffer (R24) -/
  blk : Vector Byte 64
  /-- `LEN`, the message length in bytes (R33) -/
  len : Length
  /-- `CUR`, the cursor (R28) -/
  cur : Length
  /-- `CNS`, the consumed count (R30) -/
  cns : BitVec 7
  /-- `FIN`, the termination flag (R31) -/
  fin : Bool
  /-- `T`, the index register (R29) -/
  t : BitVec 7
  /-- `ALG`, the algorithm select (R32) -/
  alg : Alg
  /-- `ST`, the Driver's state (R25) -/
  st : DriverState
  /-- `PH`, the phase (R26) -/
  ph : Phase
  /-- the reset input is asserted (R280) -/
  inReset : Bool
  /-- the message memory (R61) -/
  msg : Memory
  /-- MODEL's own: the pending turns, first one next (log 3) -/
  turns : List Turn
  /-- MODEL's own: the data the last host read returned (R45; log 11) -/
  rdata : Word
  /-- MODEL's own: a byte below `LEN` changed during the running operation (U3; log 6) -/
  msgChanged : Bool
  /-- MODEL's own: how many free values have been drawn (log 2) -/
  draws : Nat
deriving DecidableEq, Repr

/-- There is no fault: the processor raises no exception, no micro-operation and no host command can fail (R250), and it
has no error state (R252). The type has no constructor, so no step can answer one. -/
inductive Fault : Type
deriving DecidableEq, Repr

/-- The inputs the spec gives no behaviour to, and the instructions without a meaning. -/
inductive Refusal where
  /-- Raised by `exec` for an instruction without a meaning. No arm raises it: every instruction has one. Safe. -/
  | notModelled (mnemonic : String)
  /-- Raised by `BB.NEXT` for `CUR > LEN`, or `CUR = LEN` with `LEN mod 64` in 1 to 55: the behaviour is unspecified
  and no run reaches it (R167, U1). Safe. -/
  | cursorOutsideInvariant
  /-- Raised by `MS.EXP.*` and `CP.RND.*` for a `T` outside the range the rule states for its operand (R181, R182,
  R192, R193), where the element it names does not exist; no run reaches it. Safe. -/
  | indexOutsideRange
deriving DecidableEq, Repr

/-- The state after reset (R48, R280): `ST`, `ALG` and `LEN` as the spec says, every register it leaves unspecified at
zero (log 1), no message byte and no turn pending. -/
def State.reset : State where
  h := Vector.replicate 8 0
  v := Vector.replicate 8 0
  w := Vector.replicate 80 0
  blk := Vector.replicate 64 0
  len := 0
  cur := 0
  cns := 0
  fin := false
  t := 0
  alg := .sha1
  st := .idle
  ph := .init
  inReset := false
  msg := []
  turns := []
  rdata := 0
  msgChanged := false
  draws := 0

end Sys2Proof.Machine
end

