-- ==== Sys2Proof/Machine/Operands.lean ====
section
/-! DEFINITION. Every operand form of the spec: words from block bytes (30_encoding.md R100), the length field (R101),
the two halves of `LEN` (R102), the schedule word that `T` names (R97), the case of the BlockBuilder and its payload
(R99; 41_block_builder.md R161, R168). -/

namespace Sys2Proof.Machine

/-- `be64(n)`: the eight bytes of a 64-bit value, most significant first (R10). -/
def be64 (n : BitVec 64) : List Byte := (List.range 8).map fun j => n.extractLsb' (56 - 8 * j) 8

/-- `N = 8 x LEN`, the message length in bits: `N[63:3] = LEN`, `N[2:0] = 0` (R101). -/
def bitLength (len : Length) : BitVec 64 := len ++ 0#3

/-- The length field `be64(8 x LEN)` (R101). -/
def lengthField (len : Length) : List Byte := be64 (bitLength len)

/-- A block byte by its index (R10); the index is below 64 wherever this is used. -/
def blockByte (blk : Vector Byte 64) (i : Nat) : Byte := blk[i]?.getD 0

/-- `word(i) = BLK[4i] ‖ BLK[4i+1] ‖ BLK[4i+2] ‖ BLK[4i+3]` (R100). -/
def blockWord (blk : Vector Byte 64) (i : Nat) : Word :=
  blockByte blk (4 * i) ++ blockByte blk (4 * i + 1) ++ blockByte blk (4 * i + 2) ++ blockByte blk (4 * i + 3)

/-- The 64-byte block of a byte sequence of length 64 (R98). -/
def toBlock (bytes : List Byte) : Vector Byte 64 := Vector.ofFn fun i => bytes.getD i.val 0

/-- A schedule word by its index (R97); the index is below 80 wherever this is used. -/
def schedWord (w : Vector Word 80) (i : Nat) : Word := w[i]?.getD 0

/-- `LEN[31:0]` (R38, R102). -/
def lenLo (len : Length) : Word := len.extractLsb' 0 32

/-- `zext_32(LEN[60:32])` (R39, R102). -/
def lenHi (len : Length) : Word := (len.extractLsb' 32 29).setWidth 32

/-- `LEN` after `LEN[31:0] <- v` (R38). -/
def withLenLo (len : Length) (v : Word) : Length := len.extractLsb' 32 29 ++ v

/-- `LEN` after `LEN[60:32] <- v[28:0]`; `v[31:29]` is dropped (R39). -/
def withLenHi (len : Length) (v : Word) : Length := v.extractLsb' 0 29 ++ len.extractLsb' 0 32

/-- The five outcomes of the BlockBuilder (R19, R99). -/
inductive PadCase where
  /-- F -/
  | full
  /-- T -/
  | tail
  /-- L -/
  | last
  /-- P -/
  | padWithTerm
  /-- Z -/
  | padWithoutTerm
deriving DecidableEq, Repr

/-- Case selection (R160, R161) on `LEN` and `CUR`; none where the spec gives no behaviour (R167). -/
def padCase (len cur : Nat) : Option PadCase :=
  if len < cur then none
  else if len - cur = 0 then
    if len % 64 = 0 then some .padWithTerm
    else if 56 ≤ len % 64 then some .padWithoutTerm
    else none
  else if 64 ≤ len - cur then some .full
  else if 56 ≤ len - cur then some .tail
  else some .last

/-- `p`, how many message bytes the block carries (R99, R168). -/
def payloadLength (c : PadCase) (rem : Nat) : Nat :=
  match c with
  | .full => 64
  | .tail => rem
  | .last => rem
  | .padWithTerm => 0
  | .padWithoutTerm => 0

/-- The 64 bytes of a block from its payload (R160, R162 to R166). -/
def blockBytes (c : PadCase) (payload : List Byte) (rem : Nat) (len : Length) : List Byte :=
  match c with
  | .full => payload
  | .tail => payload ++ [Config.termByte] ++ List.replicate (63 - rem) 0
  | .last => payload ++ [Config.termByte] ++ List.replicate (55 - rem) 0 ++ lengthField len
  | .padWithTerm => [Config.termByte] ++ List.replicate 55 0 ++ lengthField len
  | .padWithoutTerm => List.replicate 56 0 ++ lengthField len

/-- `CNS` as `BB.NEXT` sets it (R161). -/
def consumed (c : PadCase) (rem : Nat) : BitVec 7 :=
  match c with
  | .full => 64
  | .tail => BitVec.ofNat 7 rem
  | .last => 0
  | .padWithTerm => 0
  | .padWithoutTerm => 0

end Sys2Proof.Machine
end

