-- ==== Sys2Proof/Machine/Flags.lean ====
section
/-! DEFINITION. The only condition flag is `FIN` (10_state.md R31); no arithmetic sets a flag (40_constants_wordops.md
R138). Beside it, the bits of `STATUS` (R37) and the output `done` (R45), which are computed from `ST` and `ALG`. -/

namespace Sys2Proof.Machine

/-- `FIN` as `BB.NEXT` sets it: 1 when the block just built is the final one (R31, R161). -/
def finFlag : PadCase → Bool
  | .full => false
  | .tail => false
  | .last => true
  | .padWithTerm => true
  | .padWithoutTerm => true

/-- `STATUS.BUSY` (R37). -/
def State.busy (s : State) : Bool := s.st == .processing

/-- Output `done`, equal at every moment to `STATUS.DONE` (R37, R45). -/
def State.done (s : State) : Bool := s.st == .done

/-- The word a read of `STATUS` returns: bit 0 `BUSY`, bit 1 `DONE`, bit 2 `ALG`, the rest zero (R37). -/
def statusWord (s : State) : Word :=
  0#29 ++ algBit s.alg ++ BitVec.ofBool s.done ++ BitVec.ofBool s.busy

end Sys2Proof.Machine
end

