-- ==== Sys2Proof/Machine/Ops.lean ====
section
/-! DEFINITION. The named operations over memory and registers. The processor takes no exception and returns from none
(60_exceptions.md R250, R255, R256), so there is no operation for either; the one event that abandons what it does is
reset (70_reset_and_hazards.md R280, R282), `State.enterReset` below. -/

namespace Sys2Proof.Machine

/-! ### Message memory (R61, R62) -/

/-- `MemRead(addr, 1)`: the byte at an offset, if the platform has one there (R13, R62, R71). -/
def Memory.read : Memory → Nat → Option Byte
  | [], _ => none
  | (a, b) :: m, x => if a = x then some b else Memory.read m x

/-- One byte written by the host or the platform (R73); the processor never writes (R64). -/
def Memory.write : Memory → Nat → Byte → Memory
  | [], x, b => [(x, b)]
  | (a, c) :: m, x, b =>
    if x < a then (x, b) :: (a, c) :: m
    else if x = a then (x, b) :: m
    else (a, c) :: Memory.write m x b

/-- The offsets are strictly rising from `lo` on and below 2^61 (R61). -/
def Memory.risingFrom : Nat → Memory → Bool
  | _, [] => true
  | lo, (a, _) :: m => decide (lo ≤ a) && decide (a < 2 ^ 61) && Memory.risingFrom (a + 1) m

/-- The canonical form of the message memory. -/
def Memory.wf (m : Memory) : Bool := Memory.risingFrom 0 m

/-- The `n` single-byte reads at `off` to `off + n - 1`, in increasing order (R62); none if the platform refuses one of
them. -/
def readBytes (m : Memory) (off : Nat) : Nat → Option (List Byte)
  | 0 => some []
  | n + 1 =>
    match Memory.read m off with
    | none => none
    | some b =>
      match readBytes m (off + 1) n with
      | none => none
      | some bs => some (b :: bs)

/-! ### Named updates of the state -/

/-- The first pending turn is taken. -/
def State.popTurn (s : State) : State := { s with turns := s.turns.tail }

/-- Acceptance of a command (R210 to R212): exactly `ALG`, `ST` and `PH`; the model's mark of a changed message starts
anew with the operation (log 6). -/
def State.accept (s : State) (a : Alg) : State :=
  { s with alg := a, st := .processing, ph := .init, msgChanged := false }

/-- `W[t] <- x` (R181, R182). -/
def State.putWord (s : State) (t : Nat) (x : Word) : State := { s with w := s.w.setIfInBounds t x }

/-- The working variables after a round (R192, R193). -/
def State.putVars (s : State) (v : Vector Word 8) : State := { s with v := v }

/-- After the step at index `t`: the next index, or after the last one the next phase (R218). -/
def State.nextIndex (s : State) (last : Nat) (p : Phase) : State :=
  if s.t.toNat = last then { s with ph := p } else { s with t := s.t + 1 }

/-- The words of `H` that hold the digest become free values (U3; log 6): five under SHA-1, eight under SHA-256. -/
def State.freeDigest (s : State) : State :=
  { s with
    h := Vector.ofFn fun i => if i.val < Config.nh s.alg then Config.changedMessageWord s.draws i.val else s.h[i]
    draws := s.draws + 1 }

/-- The operation ends: `ST <- DONE` (R217). If the host changed the message during it, the digest is any value (U3). -/
def State.finish (s : State) : State :=
  if s.msgChanged then { s.freeDigest with st := .done } else { s with st := .done }

/-- The reset input is asserted: `ST`, `ALG` and `LEN` are as R48 says, every other register of the instance is
unspecified and so a free value (R280, R282; log 2). The message memory is not affected (R282). -/
def State.enterReset (s : State) : State :=
  { s with
    h := Vector.ofFn fun i => Config.resetWord s.draws i.val
    v := Vector.ofFn fun i => Config.resetWord s.draws (8 + i.val)
    w := Vector.ofFn fun i => Config.resetWord s.draws (16 + i.val)
    blk := Vector.ofFn fun i => Config.resetByte s.draws i.val
    len := 0
    cur := Config.resetCursor s.draws
    cns := Config.resetConsumed s.draws
    fin := Config.resetFin s.draws
    t := Config.resetIndex s.draws
    alg := .sha1
    st := .idle
    ph := Config.resetPhase s.draws
    inReset := true
    msgChanged := false
    draws := s.draws + 1 }

/-- A byte of message memory is written. If it is below `LEN`, changes the byte there and an operation is running, the
host has broken its duty (R73, R285): the model marks it (U3; log 6). -/
def State.storeMessage (s : State) (off : Length) (b : Byte) : State :=
  { s with
    msg := Memory.write s.msg off.toNat b
    msgChanged := s.msgChanged ||
      (s.busy && decide (off < s.len) && decide (Memory.read s.msg off.toNat ≠ some b)) }

end Sys2Proof.Machine
end

