-- ==== Sys2Proof/Machine/BlockBuilder.lean ====
section
/-! DEFINITION. The BlockBuilder (41_block_builder.md R160 to R168), with the three readings of 90_conflicts.md C1 to C3
that its rules state. -/

namespace Sys2Proof.Machine

/-- `BLK`, `CNS`, `FIN` and `PH` after a block of case `c` with this payload (R160). -/
def putBlock (c : PadCase) (payload : List Byte) (s : State) : State :=
  { s with
    blk := toBlock (blockBytes c payload (s.len.toNat - s.cur.toNat) s.len)
    cns := consumed c (s.len.toNat - s.cur.toNat)
    fin := finFlag c
    ph := .parse }

/-- `BB.NEXT` (R160). Outside the Driver's invariant it is refused (R167, U1). Where the platform refuses a message byte
that the block needs, the step is not enabled: nothing happens and the instance stays in PROCESSING at phase BLOCK (R71,
R252, U4; log 5). `CUR` is not changed. -/
def execBbNext (s : State) : Host.Outcome State Fault Refusal :=
  match padCase s.len.toNat s.cur.toNat with
  | none => .refused .cursorOutsideInvariant
  | some c =>
    match readBytes s.msg s.cur.toNat (payloadLength c (s.len.toNat - s.cur.toNat)) with
    | none => .next s
    | some payload => .next (putBlock c payload s)

end Sys2Proof.Machine
end

