-- ==== Sys2Proof/Machine/Commands.lean ====
section
/-! DEFINITION. The two host commands (44_driver.md R210 to R212). -/

namespace Sys2Proof.Machine

/-- A command is accepted in IDLE and DONE and ignored in PROCESSING (R212). -/
def hashCommand (a : Alg) (s : State) : Host.Outcome State Fault Refusal :=
  .next (if s.st = .processing then s else s.accept a)

/-- `HASH.SHA1` (R210). -/
def execHashSha1 (s : State) : Host.Outcome State Fault Refusal := hashCommand .sha1 s

/-- `HASH.SHA256` (R211). -/
def execHashSha256 (s : State) : Host.Outcome State Fault Refusal := hashCommand .sha256 s

end Sys2Proof.Machine
end

