-- ==== Sys2Proof/Machine/WordOps.lean ====
section
/-! DEFINITION. The Constants block, its functions: word operations, Boolean combinators, SHA-1 selector, sigma
functions (40_constants_wordops.md R120 to R127, R129 to R132). No function has state or a flag. -/

namespace Sys2Proof.Machine

/-- `ADD32` (R120): the exact sum, reduced modulo 2^32; the carry is discarded. -/
def add32 (x y : Word) : Word := BitVec.ofNat 32 (x.toNat + y.toNat)

/-- `ROTL(x, n)` for `1 <= n <= 31` (R121): the formula of the rule. -/
def rotl (x : Word) (n : Nat) : Word := (x <<< n) ||| (x >>> (32 - n))

/-- `ROTR(x, n)` for `1 <= n <= 31` (R122): the left rotate by the rest of the width. -/
def rotr (x : Word) (n : Nat) : Word := rotl x (32 - n)

/-- `SHR(x, n)` for `1 <= n <= 31` (R123), logical. -/
def shr (x : Word) (n : Nat) : Word := x >>> n

/-- `CH` (R124), Choose. -/
def ch (x y z : Word) : Word := (x &&& y) ||| (~~~x &&& z)

/-- `PARITY` (R125). -/
def parity (x y z : Word) : Word := x ^^^ y ^^^ z

/-- `MAJ` (R126), Majority. -/
def maj (x y z : Word) : Word := (x &&& y) ||| (x &&& z) ||| (y &&& z)

/-- `F1` (R127): Choose in rounds 0 to 19, Parity in 20 to 39, Majority in 40 to 59, Parity in 60 to 79. -/
def f1 (t : Nat) (x y z : Word) : Word :=
  if t < 20 then ch x y z
  else if t < 40 then parity x y z
  else if t < 60 then maj x y z
  else parity x y z

/-- `BSIG0` (R129): three rotates combined with XOR. -/
def bsig0 (x : Word) : Word := parity (rotr x 2) (rotr x 13) (rotr x 22)

/-- `BSIG1` (R130). -/
def bsig1 (x : Word) : Word := parity (rotr x 6) (rotr x 11) (rotr x 25)

/-- `SSIG0` (R131, 90_conflicts.md C4). -/
def ssig0 (x : Word) : Word := parity (rotr x 7) (rotr x 18) (shr x 3)

/-- `SSIG1` (R132, 90_conflicts.md C4). -/
def ssig1 (x : Word) : Word := parity (rotr x 17) (rotr x 19) (shr x 10)

end Sys2Proof.Machine
end

