-- ==== Sys2Proof/Machine/Compressor.lean ====
section
/-! DEFINITION. The Compressor (43_compressor.md R190 to R194). -/

namespace Sys2Proof.Machine

/-- The first `n` working variables from HashState, `T` 0, phase ROUND (R190, R191). -/
def loadVars (n : Nat) (s : State) : State :=
  { s with v := Vector.ofFn fun i => if i.val < n then s.h[i] else s.v[i], t := 0, ph := .round }

/-- `CP.LOAD.SHA1` (R190): `V[5..7]` are not written. -/
def execCpLoadSha1 (s : State) : Host.Outcome State Fault Refusal := .next (loadVars 5 s)

/-- `CP.LOAD.SHA256` (R191). -/
def execCpLoadSha256 (s : State) : Host.Outcome State Fault Refusal := .next (loadVars 8 s)

/-- One SHA-1 round on `a..e`, `V[0..4]` (R192). -/
def round1 (t : Nat) (wt : Word) (v : Vector Word 8) : Vector Word 8 :=
  let temp := add32 (add32 (add32 (add32 (rotl v[0] 5) (f1 t v[1] v[2] v[3])) v[4]) (k1sel t)) wt
  #v[temp, v[0], rotl v[1] 30, v[2], v[3], v[5], v[6], v[7]]

/-- One SHA-256 round on `a..h`, `V[0..7]` (R193). -/
def round256 (t : Nat) (wt : Word) (v : Vector Word 8) : Vector Word 8 :=
  let t1 := add32 (add32 (add32 (add32 v[7] (bsig1 v[4])) (ch v[4] v[5] v[6])) (const k256 t)) wt
  let t2 := add32 (bsig0 v[0]) (maj v[0] v[1] v[2])
  #v[add32 t1 t2, v[0], v[1], v[2], add32 v[3] t1, v[4], v[5], v[6]]

/-- One round step, for `0 <= T <= last` (R192, R193); then the next index, or phase FOLD. -/
def roundStep (last : Nat) (round : Nat → Word → Vector Word 8 → Vector Word 8) (s : State) :
    Host.Outcome State Fault Refusal :=
  if s.t.toNat ≤ last then
    .next ((s.putVars (round s.t.toNat (schedWord s.w s.t.toNat) s.v)).nextIndex last .fold)
  else .refused .indexOutsideRange

/-- `CP.RND.SHA1` (R192). -/
def execCpRndSha1 (s : State) : Host.Outcome State Fault Refusal :=
  roundStep 79 round1 s

/-- `CP.RND.SHA256` (R193). -/
def execCpRndSha256 (s : State) : Host.Outcome State Fault Refusal :=
  roundStep 63 round256 s

end Sys2Proof.Machine
end

