-- ==== Sys2Proof/Machine/Driver.lean ====
section
/-! DEFINITION. The Driver's micro-operations (44_driver.md R213 to R217). -/

namespace Sys2Proof.Machine

/-- The start of an operation: the words of HashState that the initial-value table has from it, the others zero
(92_eei_decisions.md D11), cursor 0, `FIN` cleared, phase BLOCK (R213, R214). -/
def initDriver (iv : List Word) (s : State) : State :=
  { s with
    h := Vector.ofFn fun i => if i.val < iv.length then const iv i.val else 0
    cur := 0
    fin := false
    ph := .block }

/-- `DRV.INIT.SHA1` (R213): `H[0..4]` from `IV1`, `H[5..7]` zero. -/
def execDrvInitSha1 (s : State) : Host.Outcome State Fault Refusal := .next (initDriver iv1 s)

/-- `DRV.INIT.SHA256` (R214): `H[0..7]` from `IV256`. -/
def execDrvInitSha256 (s : State) : Host.Outcome State Fault Refusal := .next (initDriver iv256 s)

/-- The fold of the first `n` words, each its own addition modulo 2^32 (R215, R216). -/
def foldHash (n : Nat) (s : State) : State :=
  { s with h := Vector.ofFn fun i => if i.val < n then add32 s.h[i] s.v[i] else s.h[i], ph := .next }

/-- `DRV.FOLD.SHA1` (R215). -/
def execDrvFoldSha1 (s : State) : Host.Outcome State Fault Refusal := .next (foldHash 5 s)

/-- `DRV.FOLD.SHA256` (R216). -/
def execDrvFoldSha256 (s : State) : Host.Outcome State Fault Refusal := .next (foldHash 8 s)

/-- `CUR <- CUR + CNS`, on 61 bits (R217). -/
def advanceCursor (s : State) : State := { s with cur := s.cur + s.cns.setWidth 61 }

/-- `DRV.NEXT` (R217): the cursor advances; then `DONE`, `PH` keeping its value, or the next block. -/
def execDrvNext (s : State) : Host.Outcome State Fault Refusal :=
  .next (if s.fin then (advanceCursor s).finish else { advanceCursor s with ph := .block })

end Sys2Proof.Machine
end

