-- ==== Sys2Proof/Machine/Scheduler.lean ====
section
/-! DEFINITION. The MessageScheduler (42_message_scheduler.md R180 to R183). -/

namespace Sys2Proof.Machine

/-- `W[0..15]` from the block, `W[16..79]` as they were, `T` 16, phase EXPAND (R180). -/
def parseBlock (s : State) : State :=
  { s with
    w := Vector.ofFn fun i => if i.val < 16 then blockWord s.blk i.val else s.w[i]
    t := 16
    ph := .expand }

/-- `MS.PARSE` (R180). -/
def execMsParse (s : State) : Host.Outcome State Fault Refusal := .next (parseBlock s)

/-- The schedule word `t` of SHA-1 from the words before it (R181). -/
def expandWord1 (w : Vector Word 80) (t : Nat) : Word :=
  rotl (schedWord w (t - 3) ^^^ schedWord w (t - 8) ^^^ schedWord w (t - 14) ^^^ schedWord w (t - 16)) 1

/-- The schedule word `t` of SHA-256 from the words before it (R182). -/
def expandWord256 (w : Vector Word 80) (t : Nat) : Word :=
  add32 (add32 (add32 (ssig1 (schedWord w (t - 2))) (schedWord w (t - 7))) (ssig0 (schedWord w (t - 15))))
    (schedWord w (t - 16))

/-- One expansion step: word `T`, for `16 <= T <= last` (R181, R182); then the next index, or phase LOAD. -/
def expandStep (last : Nat) (word : Vector Word 80 → Nat → Word) (s : State) : Host.Outcome State Fault Refusal :=
  if 16 ≤ s.t.toNat ∧ s.t.toNat ≤ last then
    .next ((s.putWord s.t.toNat (word s.w s.t.toNat)).nextIndex last .load)
  else .refused .indexOutsideRange

/-- `MS.EXP.SHA1` (R181). -/
def execMsExpSha1 (s : State) : Host.Outcome State Fault Refusal :=
  expandStep 79 expandWord1 s

/-- `MS.EXP.SHA256` (R182). -/
def execMsExpSha256 (s : State) : Host.Outcome State Fault Refusal :=
  expandStep 63 expandWord256 s

end Sys2Proof.Machine
end

