-- ==== Sys2Proof/Machine/Dispatch.lean ====
section
/-! DEFINITION. One arm for each operation of the opcode table. Whether the sequencer has a step, and which, is the
step's business (44_driver.md R225; log 12). -/

namespace Sys2Proof.Machine

def exec (i : Instr) (s : State) : Host.Outcome State Fault Refusal :=
  match i with
  | .hashSha1 => Sys2Proof.Machine.execHashSha1 s
  | .hashSha256 => Sys2Proof.Machine.execHashSha256 s
  | .drvInitSha1 => Sys2Proof.Machine.execDrvInitSha1 s
  | .drvInitSha256 => Sys2Proof.Machine.execDrvInitSha256 s
  | .bbNext _ => Sys2Proof.Machine.execBbNext s
  | .msParse _ => Sys2Proof.Machine.execMsParse s
  | .msExpSha1 => Sys2Proof.Machine.execMsExpSha1 s
  | .msExpSha256 => Sys2Proof.Machine.execMsExpSha256 s
  | .cpLoadSha1 => Sys2Proof.Machine.execCpLoadSha1 s
  | .cpLoadSha256 => Sys2Proof.Machine.execCpLoadSha256 s
  | .cpRndSha1 => Sys2Proof.Machine.execCpRndSha1 s
  | .cpRndSha256 => Sys2Proof.Machine.execCpRndSha256 s
  | .drvFoldSha1 => Sys2Proof.Machine.execDrvFoldSha1 s
  | .drvFoldSha256 => Sys2Proof.Machine.execDrvFoldSha256 s
  | .drvNext _ => Sys2Proof.Machine.execDrvNext s

end Sys2Proof.Machine
end

