-- ==== Sys2Proof/Machine/Fetch.lean ====
section
/-! DEFINITION. Where a step takes its operation from: the select code `ALG ‖ PH` when it is the sequencer's turn and
`ST = PROCESSING` (30_encoding.md R95; 44_driver.md R225), the written word when it is the host's turn to write `CTRL`
(R91, R36). There is no stored program (10_state.md R27). -/

namespace Sys2Proof.Machine

/-- The sequencer's code, if it has a step (R225). -/
def sequencerCode (s : State) : Option Code :=
  if s.st = .processing then some (.select (selectCode s.alg s.ph)) else none

/-- The code the next step decodes, if it runs an operation. While reset is asserted the sequencer takes no step and
host accesses have no effect (R280). With no turn pending, and while the host waits, it is the sequencer's turn (R292;
log 3). -/
def fetch (s : State) : Option Code :=
  if s.inReset then none
  else
    match s.turns with
    | [] => sequencerCode s
    | .seq :: _ => sequencerCode s
    | .wait :: _ => sequencerCode s
    | .write reg v :: _ => if reg = 0 then some (.command v) else none
    | .read _ :: _ => none
    | .store _ _ :: _ => none
    | .assertReset :: _ => none
    | .releaseReset :: _ => none

/-- The turn that a fetched operation uses up: `WAIT` stays pending (R105). -/
def State.consumeTurn (s : State) : State :=
  match s.turns with
  | .wait :: _ => s
  | _ => s.popTurn

/-- The index the sequencer position `(PH, T)` starts a phase with: 16 in EXPAND, 0 in ROUND (R27, R218). -/
def entryIndex (p : Phase) (t : BitVec 7) : BitVec 7 :=
  match p with
  | .expand => 16
  | .round => 0
  | .init => t
  | .block => t
  | .parse => t
  | .load => t
  | .fold => t
  | .next => t

/-- The state whose very next step runs the operation of a code (log 4): a command is the host's next write of `CTRL`;
a select code is the sequencer's position at the start of its phase, in PROCESSING, with the sequencer's turn next. -/
def placeCode (s : State) : Code → State
  | .command w => { s with inReset := false, turns := .write 0 w :: s.turns }
  | .select u =>
    { s with
      inReset := false
      st := .processing
      alg := selectAlg u
      ph := selectPhase u
      t := entryIndex (selectPhase u) s.t
      turns := .seq :: s.turns }

end Sys2Proof.Machine
end

