-- ==== Sys2Proof/Machine/HostPort.lean ====
section
/-! DEFINITION. The host side: register reads and writes (10_state.md R35 to R43), the reset input
(70_reset_and_hazards.md R280), message stores, and the turns that run no operation of the opcode table. A write of
`CTRL` is decoded as an operation (Machine/Fetch.lean). -/

namespace Sys2Proof.Machine

/-- A host read of a register (R36 to R41). While reset is asserted every read returns 0 (R280). -/
def readCsr (s : State) (reg : Nat) : Word :=
  if s.inReset then 0
  else if reg = 1 then statusWord s
  else if reg = 2 then lenLo s.len
  else if reg = 3 then lenHi s.len
  else if 4 ≤ reg ∧ reg ≤ 11 then (if s.st = .done then s.h[reg - 4]?.getD 0 else 0)
  else 0

/-- A host write of a register other than `CTRL` (R37 to R42): only `LEN` can change, and not while PROCESSING or while
reset is asserted (R280). -/
def writeCsr (s : State) (reg : Nat) (v : Word) : State :=
  if s.inReset ∨ s.st = .processing then s
  else if reg = 2 then { s with len := withLenLo s.len v }
  else if reg = 3 then { s with len := withLenHi s.len v }
  else s

/-- A host read as a turn: the data stand in `rdata` after it, nothing else changes (R37, R40, R42; log 11). -/
def State.hostRead (s : State) (reg : Nat) : State := { s with rdata := readCsr s reg }

/-- The host sees `DONE` when it polls `STATUS` (R105 `WAIT`); while reset is asserted it reads 0 (R280). -/
def State.seesDone (s : State) : Bool := s.done && !s.inReset

/-- A turn that runs no operation of the opcode table: the sequencer without a step (R225), `WAIT`, a register read, a
write of a register other than `CTRL`, a message store, the reset input. `WAIT` stays pending until the host sees
`DONE`, and its last read is of `STATUS`. With no turn pending and no step enabled the state is held (R225, R263). -/
def hostTurn (s : State) : State :=
  match s.turns with
  | [] => s
  | .seq :: _ => s.popTurn
  | .wait :: _ => if s.seesDone then s.popTurn.hostRead 1 else s
  | .write reg v :: _ => writeCsr s.popTurn reg v
  | .read reg :: _ => s.popTurn.hostRead reg
  | .store off b :: _ => s.popTurn.storeMessage off b
  | .assertReset :: _ => s.popTurn.enterReset
  | .releaseReset :: _ => { s.popTurn with inReset := false }

end Sys2Proof.Machine
end

