-- ==== Sys2Proof/Machine/Step.lean ====
section
/-! DEFINITION. One step of the machine: one turn of the schedule (00_scope.md R15). -/

namespace Sys2Proof.Machine

/-- A turn that fetches a code runs the operation it decodes to; a command word that decodes to none is ignored
(30_encoding.md R94); every other turn is the host's or the platform's. -/
def step (s : State) : Host.Outcome State Fault Refusal :=
  match fetch s with
  | none => .next (hostTurn s)
  | some c =>
    match decode c with
    | .ok i => exec i s.consumeTurn
    | .error _ => .next s.consumeTurn

/-- `s` with the table's word placed where the next step takes its operation from (log 4); a word of no format changes
nothing. -/
def State.withFetchWord (s : State) (nbits w : Nat) : State :=
  match codeOfTableWord nbits w with
  | none => s
  | some c => placeCode s c

end Sys2Proof.Machine
end

