-- ==== Sys2Proof/Machine/HostProgram.lean ====
section
/-! DEFINITION. The spec's notation for host programs as lists of turns (30_encoding.md R105 to R107): a write step is
the pair of register number and value, a read step the register number. -/

namespace Sys2Proof.Machine

/-- `MSG`: the message bytes from offset 0 on, written by the host before the operation (R105, R283 step 1). -/
def msgTurns (m : List Byte) : List Turn := m.mapIdx fun i b => .store (BitVec.ofNat 61 i) b

/-- `SETLEN n` (R106). -/
def setLenTurns (n : Length) : List Turn := [.write 2 (lenLo n), .write 3 (lenHi n)]

/-- `SHA1 n` (R106): `SETLEN n`, `HASH.SHA1`, `WAIT`, `RD DIGEST0` to `RD DIGEST4`. -/
def sha1Turns (n : Length) : List Turn :=
  setLenTurns n ++ [.write 0 0x00000001, .wait, .read 4, .read 5, .read 6, .read 7, .read 8]

/-- `SHA256 n` (R106). -/
def sha256Turns (n : Length) : List Turn :=
  setLenTurns n ++
    [.write 0 0x00000003, .wait, .read 4, .read 5, .read 6, .read 7, .read 8, .read 9, .read 10, .read 11]

end Sys2Proof.Machine
end

