-- ==== Sys2Proof/Machine/BigStep.lean ====
section
/-! DEFINITION. The hash functions as the spec writes them in one piece: padding (41_block_builder.md R169, R170),
schedule (42_message_scheduler.md R184), compression (43_compressor.md R195), digest (44_driver.md R221). They are
written on lists and on tuples of words, apart from the micro-operations, so that R184, R195 and R222 say something. -/

namespace Sys2Proof.Machine

/-! ### Padding -/

/-- `NB`, the block count: the ceiling of `(LEN + 9) / 64` (R170). -/
def blockCount (len : Nat) : Nat := (len + 9 + 63) / 64

/-- `k`, the zero bytes of the padding: the least with `(LEN + 1 + k) mod 64 = 56` (R169, R221). -/
def zeroFill (len : Nat) : Nat := (119 - len % 64) % 64

/-- `pad(m) = m ‖ 0x80 ‖ 0x00^k ‖ be64(8 L)` (R221). -/
def pad (m : List Byte) : List Byte :=
  m ++ [Config.termByte] ++ List.replicate (zeroFill m.length) 0 ++ be64 (BitVec.ofNat 64 (8 * m.length))

/-- Block `j` of a padded message, its bytes `64 j` to `64 j + 63` (R221). -/
def piece (bytes : List Byte) (j : Nat) : List Byte := (bytes.drop (64 * j)).take 64

/-- `CUR` at the `BB.NEXT` of block `j` (R171, R173): the last block after a tail block has no payload left. -/
def cursorAt (len j : Nat) : Nat := min (64 * j) len

/-! ### Schedule -/

/-- `be32^-1`: four bytes to a word, first byte most significant (R184). -/
def word32 (b0 b1 b2 b3 : Byte) : Word := b0 ++ b1 ++ b2 ++ b3

/-- The sixteen words of a block (R184). -/
def blockWords (B : List Byte) : List Word :=
  (List.range 16).map fun i =>
    word32 (B.getD (4 * i) 0) (B.getD (4 * i + 1) 0) (B.getD (4 * i + 2) 0) (B.getD (4 * i + 3) 0)

/-- A schedule grown by its next word, which the words so far determine. -/
def grow (next : (Nat → Word) → Nat → Word) (ws : List Word) : List Word :=
  ws ++ [next (fun i => ws.getD i 0) ws.length]

/-- A schedule grown by `n` words. -/
def growBy (next : (Nat → Word) → Nat → Word) : Nat → List Word → List Word
  | 0, ws => ws
  | n + 1, ws => growBy next n (grow next ws)

/-- `sched1(B)`, 80 words (R184). -/
def sched1 (B : List Byte) : List Word :=
  growBy (fun W t => rotl (W (t - 3) ^^^ W (t - 8) ^^^ W (t - 14) ^^^ W (t - 16)) 1) 64 (blockWords B)

/-- `sched256(B)`, 64 words (R184). -/
def sched256 (B : List Byte) : List Word :=
  growBy (fun W t => add32 (add32 (add32 (ssig1 (W (t - 2))) (W (t - 7))) (ssig0 (W (t - 15)))) (W (t - 16)))
    48 (blockWords B)

/-! ### Compression -/

/-- Five working words, or a SHA-1 HashState. -/
structure Five where
  a : Word
  b : Word
  c : Word
  d : Word
  e : Word
deriving DecidableEq, Repr

/-- Eight working words, or a SHA-256 HashState. -/
structure Eight where
  a : Word
  b : Word
  c : Word
  d : Word
  e : Word
  f : Word
  g : Word
  h : Word
deriving DecidableEq, Repr

/-- The loop body of `comp1` (R195). -/
def compBody1 (w : List Word) (x : Five) (t : Nat) : Five :=
  let temp := add32 (add32 (add32 (add32 (rotl x.a 5) (f1 t x.b x.c x.d)) x.e) (k1sel t)) (w.getD t 0)
  ⟨temp, x.a, rotl x.b 30, x.c, x.d⟩

/-- `comp1(h, w)` (R195). -/
def comp1 (h : Five) (w : List Word) : Five := (List.range 80).foldl (compBody1 w) h

/-- The loop body of `comp256` (R195). -/
def compBody256 (w : List Word) (x : Eight) (t : Nat) : Eight :=
  let t1 := add32 (add32 (add32 (add32 x.h (bsig1 x.e)) (ch x.e x.f x.g)) (const k256 t)) (w.getD t 0)
  let t2 := add32 (bsig0 x.a) (maj x.a x.b x.c)
  ⟨add32 t1 t2, x.a, x.b, x.c, add32 x.d t1, x.e, x.f, x.g⟩

/-- `comp256(h, w)` (R195). -/
def comp256 (h : Eight) (w : List Word) : Eight := (List.range 64).foldl (compBody256 w) h

/-! ### Digest -/

/-- `h[i] = ADD32(h[i], v[i])` for five words (R221). -/
def Five.add (x y : Five) : Five := ⟨add32 x.a y.a, add32 x.b y.b, add32 x.c y.c, add32 x.d y.d, add32 x.e y.e⟩

/-- `h[i] = ADD32(h[i], v[i])` for eight words (R221). -/
def Eight.add (x y : Eight) : Eight :=
  ⟨add32 x.a y.a, add32 x.b y.b, add32 x.c y.c, add32 x.d y.d, add32 x.e y.e, add32 x.f y.f, add32 x.g y.g,
    add32 x.h y.h⟩

/-- The HashState after the first `n` blocks of a message, SHA-1 (R221). -/
def hashAfter1 (m : List Byte) : Nat → Five
  | 0 => ⟨const iv1 0, const iv1 1, const iv1 2, const iv1 3, const iv1 4⟩
  | n + 1 => (hashAfter1 m n).add (comp1 (hashAfter1 m n) (sched1 (piece (pad m) n)))

/-- The HashState after the first `n` blocks of a message, SHA-256 (R221). -/
def hashAfter256 (m : List Byte) : Nat → Eight
  | 0 =>
    ⟨const iv256 0, const iv256 1, const iv256 2, const iv256 3, const iv256 4, const iv256 5, const iv256 6,
      const iv256 7⟩
  | n + 1 => (hashAfter256 m n).add (comp256 (hashAfter256 m n) (sched256 (piece (pad m) n)))

/-- `sha1(m)` (R221). -/
def sha1 (m : List Byte) : Five := hashAfter1 m (blockCount m.length)

/-- `sha256(m)` (R221). -/
def sha256 (m : List Byte) : Eight := hashAfter256 m (blockCount m.length)

/-- The eight registers `H[0..7]` of a SHA-1 HashState: `H[5..7]` are zero (R21, R222). -/
def Five.toH (x : Five) : Vector Word 8 := #v[x.a, x.b, x.c, x.d, x.e, 0, 0, 0]

/-- The eight registers `H[0..7]` of a SHA-256 HashState (R222). -/
def Eight.toH (x : Eight) : Vector Word 8 := #v[x.a, x.b, x.c, x.d, x.e, x.f, x.g, x.h]

/-- `S`, the sequencer steps of one block iteration (R218). -/
def stepsPerBlock : Alg → Nat
  | .sha1 => 149
  | .sha256 => 117

/-- The sequencer steps of one operation, `1 + NB x S` (R218). -/
def operationSteps (a : Alg) (len : Nat) : Nat := 1 + blockCount len * stepsPerBlock a

end Sys2Proof.Machine
end

