-- ==== Sys2Proof/Safety.lean ====
section
/-! DEFINITION. The terms the claims use: running several steps, a message in memory, a free-running operation, the
invariant of the machine. -/

namespace Sys2Proof.Machine

/-- The next state of an outcome, if it is one. -/
def nextOf (o : Host.Outcome State Fault Refusal) : Option State :=
  match o with
  | .next s => some s
  | .fault _ => none
  | .refused _ => none

/-- `k` steps, stopping at the first fault or refusal. -/
def runSteps : Nat → State → Host.Outcome State Fault Refusal
  | 0, s => .next s
  | k + 1, s =>
    match step s with
    | .next s' => runSteps k s'
    | .fault r => .fault r
    | .refused r => .refused r

/-- The message of the operation: the bytes at offsets 0 to `LEN - 1` are `m` (R61). -/
def State.holds (s : State) (m : List Byte) : Prop := readBytes s.msg 0 s.len.toNat = some m

/-- Every offset below `LEN` is readable message memory, as R70 requires for the whole operation. -/
def State.messageReadable (s : State) : Prop := ∀ off, off < s.len.toNat → (Memory.read s.msg off).isSome

/-- Every message byte that the block at `CUR` needs is readable, so that the `BB.NEXT` step is enabled (R71, U4). -/
def State.blockReadable (s : State) : Prop :=
  ∀ c, padCase s.len.toNat s.cur.toNat = some c → ∀ i, i < payloadLength c (s.len.toNat - s.cur.toNat) →
    (Memory.read s.msg (s.cur.toNat + i)).isSome

/-- A turn that leaves the operation of a host that keeps its duties alone: any register access, any turn of the
sequencer, a WAIT, a store at or above `LEN` (R222, R284, R285). -/
def Turn.harmless (len : Length) : Turn → Bool
  | .seq => true
  | .write _ _ => true
  | .read _ => true
  | .wait => true
  | .store off _ => decide (len.toNat ≤ off.toNat)
  | .assertReset => false
  | .releaseReset => true

/-- The next turn is a register read of the host (`RD`, R105). -/
def State.readsRegister (s : State) : Bool :=
  match s.turns with
  | [] => false
  | .seq :: _ => false
  | .write _ _ :: _ => false
  | .read _ :: _ => true
  | .wait :: _ => false
  | .store _ _ :: _ => false
  | .assertReset :: _ => false
  | .releaseReset :: _ => false

/-- The data that the register reads among the next `k` steps return, in order. -/
def readData : Nat → State → List Word
  | 0, _ => []
  | k + 1, s =>
    match step s with
    | .next s' => (if s.readsRegister then [s'.rdata] else []) ++ readData k s'
    | .fault _ => []
    | .refused _ => []

/-- The sequencer runs freely: reset is not asserted and no turn of host or platform is pending. -/
def State.free (s : State) : Prop := s.inReset = false ∧ s.turns = []

/-- The cursor at a `BB.NEXT` step (R171): `CUR <= LEN`, and `CUR mod 64 = 0`, or `CUR = LEN` with `LEN mod 64 >= 56`. -/
def cursorOk (len cur : Nat) : Prop := cur ≤ len ∧ (cur % 64 = 0 ∨ (cur = len ∧ 56 ≤ len % 64))

/-- What holds between a `BB.NEXT` and the `DRV.NEXT` of the same block iteration: the final block is the one with
`CNS = 0` (R172), the cursor will not pass `LEN`, and unless this is the final block the next `BB.NEXT` finds the
cursor of R171. -/
def State.blockOk (s : State) : Prop :=
  (s.fin = true ↔ s.cns.toNat = 0) ∧ s.cur.toNat + s.cns.toNat ≤ s.len.toNat ∧
    (s.fin = false → cursorOk s.len.toNat (s.cur.toNat + s.cns.toNat))

/-- The sequencer's position is one that a run can reach (R27, R29, R171, R172, R218). -/
def State.positionOk (s : State) : Prop :=
  match s.ph with
  | .init => True
  | .block => cursorOk s.len.toNat s.cur.toNat
  | .parse => s.blockOk
  | .expand => s.blockOk ∧ 16 ≤ s.t.toNat ∧ s.t.toNat < Config.nw s.alg
  | .load => s.blockOk
  | .round => s.blockOk ∧ s.t.toNat < Config.nr s.alg
  | .fold => s.blockOk
  | .next => s.blockOk

/-- Under SHA-1, `H[5..7]` hold zero from DRV.INIT.SHA1 on (R21). -/
def State.upperHashOk (s : State) : Prop := s.alg = .sha1 → s.h[5] = 0 ∧ s.h[6] = 0 ∧ s.h[7] = 0

/-- The invariant of the machine: the message memory is in canonical form, reset holds the Driver in IDLE, the
sequencer's position is reachable while PROCESSING, and `H[5..7]` are zero for a SHA-1 operation once it is
initialised and when it is done. -/
structure State.Inv (s : State) : Prop where
  memory : Memory.wf s.msg = true
  reset : s.inReset = true → s.st = .idle
  position : s.st = .processing → s.positionOk
  upperHash : (s.st = .processing ∧ s.ph ≠ .init) ∨ s.st = .done → s.upperHashOk

/-! ### What a step writes -/

/-- The registers of R20, by name. -/
inductive Reg where
  | h
  | v
  | w
  | blk
  | len
  | cur
  | cns
  | fin
  | t
  | alg
  | st
  | ph
deriving DecidableEq, Repr

/-- The register holds in `s'` what it held in `s`. -/
def Reg.same : Reg → State → State → Prop
  | .h, s, s' => s'.h = s.h
  | .v, s, s' => s'.v = s.v
  | .w, s, s' => s'.w = s.w
  | .blk, s, s' => s'.blk = s.blk
  | .len, s, s' => s'.len = s.len
  | .cur, s, s' => s'.cur = s.cur
  | .cns, s, s' => s'.cns = s.cns
  | .fin, s, s' => s'.fin = s.fin
  | .t, s, s' => s'.t = s.t
  | .alg, s, s' => s'.alg = s.alg
  | .st, s, s' => s'.st = s.st
  | .ph, s, s' => s'.ph = s.ph

/-- The frame of an operation: every register not listed, the reset input, the pending turns, the host's read data and
every byte of message memory are unchanged. (The model's own marks `msgChanged` and `draws` are no hardware state.) -/
def onlyWrites (rs : List Reg) (s s' : State) : Prop :=
  (∀ r, r ∉ rs → r.same s s') ∧ s'.inReset = s.inReset ∧ s'.turns = s.turns ∧ s'.rdata = s.rdata ∧
    ∀ off, Memory.read s'.msg off = Memory.read s.msg off

/-- It is the sequencer's turn: reset is not asserted, and no turn is pending, or the host gives the sequencer a turn or
waits for `DONE` (log 3). -/
def State.sequencerTurn (s : State) : Prop :=
  s.inReset = false ∧ (s.turns = [] ∨ (∃ r, s.turns = .seq :: r) ∨ ∃ r, s.turns = .wait :: r)

/-- The next step performs a micro-operation of one of these phases. -/
def State.performs (s : State) (ps : List Phase) : Prop :=
  s.sequencerTurn ∧ s.st = .processing ∧ s.ph ∈ ps

/-- The next step is the host's write of a command word that is accepted (R212). -/
def State.acceptsCommand (s : State) (a : Alg) : Prop :=
  s.inReset = false ∧ s.st ≠ .processing ∧
    ∃ r, s.turns = .write 0 (match a with | .sha1 => 0x00000001 | .sha256 => 0x00000003) :: r

/-- The next step asserts the reset input. -/
def State.assertsReset (s : State) : Prop := ∃ r, s.turns = .assertReset :: r

/-- The successor table of R218, one row a line. -/
def successor (s s' : State) : Prop :=
  match s.ph with
  | .init => s'.ph = .block ∧ s'.st = .processing
  | .block => s'.ph = .parse ∧ s'.st = .processing
  | .parse => s'.ph = .expand ∧ s'.t = 16 ∧ s'.st = .processing
  | .expand =>
    (s.t.toNat < Config.nw s.alg - 1 → s'.ph = .expand ∧ s'.t.toNat = s.t.toNat + 1) ∧
    (s.t.toNat = Config.nw s.alg - 1 → s'.ph = .load) ∧ s'.st = .processing
  | .load => s'.ph = .round ∧ s'.t = 0 ∧ s'.st = .processing
  | .round =>
    (s.t.toNat < Config.nr s.alg - 1 → s'.ph = .round ∧ s'.t.toNat = s.t.toNat + 1) ∧
    (s.t.toNat = Config.nr s.alg - 1 → s'.ph = .fold) ∧ s'.st = .processing
  | .fold => s'.ph = .next ∧ s'.st = .processing
  | .next =>
    (s.fin = false → s'.ph = .block ∧ s'.st = .processing) ∧ (s.fin = true → s'.st = .done)

end Sys2Proof.Machine
end

