-- ==== Sys2Proof/Certificates/Slice0/Obligations.lean ====
section
/-! DEFINITION. The statements for the provers, file by file of the spec. -/

open Sys2Proof Sys2Proof.Machine

/-! ### Encodings (30_encoding.md) -/

/-- R92, R93, R96: the two command words and the sixteen select codes, as words of the table. -/
def Obligations.WordsOfTheOpcodeTableDecode : Prop :=
  decodeTableWord 32 0x00000001 = some .hashSha1 ∧ decodeTableWord 32 0x00000003 = some .hashSha256 ∧
  decodeTableWord 8 0b0000 = some .drvInitSha1 ∧ decodeTableWord 8 0b1000 = some .drvInitSha256 ∧
  decodeTableWord 8 0b0001 = some (.bbNext .sha1) ∧ decodeTableWord 8 0b1001 = some (.bbNext .sha256) ∧
  decodeTableWord 8 0b0010 = some (.msParse .sha1) ∧ decodeTableWord 8 0b1010 = some (.msParse .sha256) ∧
  decodeTableWord 8 0b0011 = some .msExpSha1 ∧ decodeTableWord 8 0b1011 = some .msExpSha256 ∧
  decodeTableWord 8 0b0100 = some .cpLoadSha1 ∧ decodeTableWord 8 0b1100 = some .cpLoadSha256 ∧
  decodeTableWord 8 0b0101 = some .cpRndSha1 ∧ decodeTableWord 8 0b1101 = some .cpRndSha256 ∧
  decodeTableWord 8 0b0110 = some .drvFoldSha1 ∧ decodeTableWord 8 0b1110 = some .drvFoldSha256 ∧
  decodeTableWord 8 0b0111 = some (.drvNext .sha1) ∧ decodeTableWord 8 0b1111 = some (.drvNext .sha256)

/-- R90 to R96: a code decodes to an instruction exactly when it is the code the encoder writes for it, so decoding
undoes encoding and no bit of an encoding is dropped. -/
def Obligations.DecodeIsTheInverseOfEncode : Prop :=
  ∀ (c : Code) (i : Instr), decode c = .ok i ↔ c = encode i

/-- R94: a word other than the two commands written to `CTRL` has no effect on any state; only the turn is used up. -/
def Obligations.OtherCommandWordsHaveNoEffect : Prop :=
  ∀ (s : State) (w : Word) (rest : List Turn), s.turns = .write 0 w :: rest → w ≠ 0x00000001 → w ≠ 0x00000003 →
    step s = .next { s with turns := rest }

/-! ### The step (44_driver.md R225, 10_state.md R36) -/

/-- A step that fetches a code of a well-formed instruction is that instruction's meaning, after the turn is used up. -/
def Obligations.StepRunsTheDecodedInstruction : Prop :=
  ∀ (s : State) (c : Code) (i : Instr), fetch s = some c → decode c = .ok i → i.wf = true →
    step s = exec i s.consumeTurn

/-- R225: the sequencer has a step exactly while PROCESSING, the micro-operation of `ALG ‖ PH`; in IDLE and DONE the
registers change only by a host write or by reset. -/
def Obligations.SequencerStepsExactlyWhileProcessing : Prop :=
  (∀ s : State, s.sequencerTurn → s.st = .processing → step s = exec (microOp s.alg s.ph) s.consumeTurn) ∧
  (∀ s : State, s.sequencerTurn → s.st ≠ .processing → ∃ s', step s = .next s' ∧ ∀ r : Reg, r.same s s') ∧
  (∀ s s' : State, s.st ≠ .processing → step s = .next s' → (∃ r : Reg, ¬ r.same s s') →
    s.assertsReset ∨ ∃ reg v rest, s.turns = .write reg v :: rest)

/-- R36: a write of a command word to `CTRL` runs the command, in whatever state the Driver is. -/
def Obligations.CommandWriteRunsTheCommand : Prop :=
  ∀ (s : State) (rest : List Turn), s.inReset = false →
    (s.turns = .write 0 0x00000001 :: rest → step s = exec .hashSha1 { s with turns := rest }) ∧
    (s.turns = .write 0 0x00000003 :: rest → step s = exec .hashSha256 { s with turns := rest })

/-! ### Reset (10_state.md R48, 70_reset_and_hazards.md R280, R282) -/

/-- R48: `ST`, `ALG`, `LEN` and the output `done` after reset; every host register reads 0. -/
def Obligations.ResetStateIsIdleAndReadsZero : Prop :=
  State.reset.st = .idle ∧ State.reset.alg = .sha1 ∧ State.reset.len = 0 ∧ State.reset.done = false ∧
    ∀ reg, readCsr State.reset reg = 0

/-- R280, R282: asserting reset from any state, and releasing it, leaves IDLE, SHA-1, `LEN` 0, `done` 0 and the message
memory as it was; the digest registers read 0. -/
def Obligations.AssertedResetAbandonsTheOperation : Prop :=
  ∀ (s : State) (rest : List Turn), s.turns = .assertReset :: rest →
    ∃ s', step s = .next s' ∧ s'.turns = rest ∧ s'.inReset = true ∧ s'.st = .idle ∧ s'.alg = .sha1 ∧ s'.len = 0 ∧
      s'.done = false ∧ (∀ off, Memory.read s'.msg off = Memory.read s.msg off) ∧
      ∀ rest', rest = .releaseReset :: rest' → ∃ s'', step s' = .next s'' ∧ s''.turns = rest' ∧
        s''.inReset = false ∧ s''.st = .idle ∧ s''.alg = .sha1 ∧ s''.len = 0 ∧ s''.done = false ∧
        (∀ off, Memory.read s''.msg off = Memory.read s.msg off) ∧ ∀ reg, readCsr s'' reg = 0

/-- R280: while reset is asserted the sequencer takes no step, and a host access has no effect and reads 0. -/
def Obligations.AssertedResetHoldsTheInstance : Prop :=
  ∀ (s : State), s.inReset = true → (∀ reg, readCsr s reg = 0) ∧
    ∀ (rest : List Turn),
      (s.turns = [] ∨ s.turns = .seq :: rest ∨ s.turns = .wait :: rest ∨ (∃ reg v, s.turns = .write reg v :: rest) →
        ∃ s', step s = .next s' ∧ s'.inReset = true ∧ s'.rdata = s.rdata ∧ ∀ r : Reg, r.same s s') ∧
      (∀ reg, s.turns = .read reg :: rest →
        ∃ s', step s = .next s' ∧ s'.inReset = true ∧ s'.rdata = 0 ∧ ∀ r : Reg, r.same s s')

/-! ### Host registers (10_state.md R35 to R45) -/

/-- R37: the bits of `STATUS`; a read has no side effect and a write is ignored. -/
def Obligations.StatusShowsBusyDoneAndAlg : Prop :=
  ∀ s : State, s.inReset = false →
    (readCsr s 1).getLsbD 0 = decide (s.st = .processing) ∧ (readCsr s 1).getLsbD 1 = decide (s.st = .done) ∧
    (readCsr s 1).getLsbD 2 = decide (s.alg = .sha256) ∧ (∀ i, 3 ≤ i → (readCsr s 1).getLsbD i = false) ∧
    ¬ ((readCsr s 1).getLsbD 0 = true ∧ (readCsr s 1).getLsbD 1 = true) ∧
    (∀ rest, s.turns = .read 1 :: rest → step s = .next { s with turns := rest, rdata := readCsr s 1 }) ∧
    (∀ v rest, s.turns = .write 1 v :: rest → step s = .next { s with turns := rest })

/-- R38, R39: the two halves of `LEN`, read and written; a write while PROCESSING is ignored. -/
def Obligations.LengthRegistersHoldTheHalvesOfLen : Prop :=
  ∀ (s : State) (v : Word) (rest : List Turn), s.inReset = false →
    (readCsr s 2).toNat = s.len.toNat % 2 ^ 32 ∧ (readCsr s 3).toNat = s.len.toNat / 2 ^ 32 ∧
    (s.turns = .write 2 v :: rest → s.st ≠ .processing → ∃ s', step s = .next s' ∧
      s'.len.toNat = s.len.toNat / 2 ^ 32 * 2 ^ 32 + v.toNat ∧ onlyWrites [.len] { s with turns := rest } s') ∧
    (s.turns = .write 3 v :: rest → s.st ≠ .processing → ∃ s', step s = .next s' ∧
      s'.len.toNat = v.toNat % 2 ^ 29 * 2 ^ 32 + s.len.toNat % 2 ^ 32 ∧
      onlyWrites [.len] { s with turns := rest } s') ∧
    (s.turns = .write 2 v :: rest ∨ s.turns = .write 3 v :: rest → s.st = .processing →
      step s = .next { s with turns := rest })

/-- R40: `DIGESTi` reads `H[i]` in DONE and 0 otherwise; `DIGEST5..7` read 0 after a SHA-1 operation; a write is
ignored and a read has no side effect. -/
def Obligations.DigestRegistersAreGatedByDone : Prop :=
  ∀ (s : State) (i : Fin 8) (rest : List Turn), s.inReset = false →
    (s.st = .done → readCsr s (4 + i.val) = s.h[i]) ∧ (s.st ≠ .done → readCsr s (4 + i.val) = 0) ∧
    (s.Inv → s.alg = .sha1 → 5 ≤ i.val → readCsr s (4 + i.val) = 0) ∧
    (s.turns = .read (4 + i.val) :: rest →
      step s = .next { s with turns := rest, rdata := readCsr s (4 + i.val) }) ∧
    (∀ v, s.turns = .write (4 + i.val) v :: rest → step s = .next { s with turns := rest })

/-- R41: registers 12 and above read 0 and ignore writes. `CTRL`, register 0, reads 0 with no other effect (R36). -/
def Obligations.AbsentRegistersReadZeroAndIgnoreWrites : Prop :=
  (∀ (s : State) (reg : Nat) (rest : List Turn), 12 ≤ reg →
    (s.turns = .read reg :: rest → step s = .next { s with turns := rest, rdata := 0 }) ∧
    (∀ v, s.turns = .write reg v :: rest → step s = .next { s with turns := rest })) ∧
  ∀ s : State, readCsr s 0 = 0 ∧
    ∀ rest, s.turns = .read 0 :: rest → step s = .next { s with turns := rest, rdata := 0 }

/-- R42: a host access never stops the machine, and changes no state but `LEN` (by `LEN_LO`, `LEN_HI`) and `ST`, `PH`,
`ALG` (by `CTRL`). -/
def Obligations.HostAccessesChangeOnlyLenAndTheCommandState : Prop :=
  ∀ (s : State) (reg : Nat) (rest : List Turn),
    (s.turns = .read reg :: rest → ∃ s', step s = .next s' ∧ s'.turns = rest ∧
      onlyWrites [] { s with turns := rest, rdata := readCsr s reg } s') ∧
    (∀ v, s.turns = .write reg v :: rest → ∃ s', step s = .next s' ∧
      onlyWrites [.len, .alg, .st, .ph] { s with turns := rest } s' ∧
      (reg ≠ 0 → s'.alg = s.alg ∧ s'.st = s.st ∧ s'.ph = s.ph) ∧
      (reg ≠ 2 → reg ≠ 3 → s'.len = s.len))

/-- R45: `done` is 1 exactly in DONE, is what `STATUS.DONE` reads, and falls when a command is accepted. That in a state
of the invariant it is 0 while reset is asserted rests on the model's choice that reset takes effect at the assertion
(log 2). -/
def Obligations.DoneOutputFollowsTheDriver : Prop :=
  ∀ s : State, (s.done = true ↔ s.st = .done) ∧ (s.inReset = false → (readCsr s 1).getLsbD 1 = s.done) ∧
    (s.Inv → s.inReset = true → s.done = false) ∧
    ∀ a, s.acceptsCommand a → ∃ s', step s = .next s' ∧ s'.done = false

/-- R44: outside DONE a host read depends on `ST`, `ALG` and `LEN` alone: nothing of `H`, `V`, `W`, `BLK`, `CUR`,
`CNS`, `FIN`, `T`, `PH` or the message is visible; in DONE, `H` is visible besides. -/
def Obligations.HiddenRegistersAreNotHostVisible : Prop :=
  ∀ (s₁ s₂ : State) (reg : Nat), s₁.inReset = s₂.inReset → s₁.st = s₂.st → s₁.alg = s₂.alg → s₁.len = s₂.len →
    (s₁.st = .done → s₁.h = s₂.h) → readCsr s₁ reg = readCsr s₂ reg

/-! ### The commands (44_driver.md R210 to R212) -/

/-- R212 with R210 and R211's effect: accepted in IDLE and DONE, where exactly `ALG`, `ST` and `PH` are written; ignored
in PROCESSING, with no state change. -/
def Obligations.CommandIsAcceptedUnlessProcessing : Prop :=
  ∀ s : State,
    (s.st ≠ .processing →
      (∃ s', exec .hashSha1 s = .next s' ∧ s'.alg = .sha1 ∧ s'.st = .processing ∧ s'.ph = .init ∧
        onlyWrites [.alg, .st, .ph] s s') ∧
      (∃ s', exec .hashSha256 s = .next s' ∧ s'.alg = .sha256 ∧ s'.st = .processing ∧ s'.ph = .init ∧
        onlyWrites [.alg, .st, .ph] s s')) ∧
    (s.st = .processing → exec .hashSha1 s = .next s ∧ exec .hashSha256 s = .next s)

/-! ### The Driver's micro-operations (44_driver.md R213 to R217) -/

/-- R213: `H[0..4]` from `IV1`, `H[5..7]` zero, `CUR` 0, `FIN` 0, phase BLOCK; nothing else. -/
def Obligations.DrvInitSha1StartsTheHash : Prop :=
  ∀ s : State, ∃ s', exec .drvInitSha1 s = .next s' ∧
    (∀ i : Fin 8, s'.h[i] = if i.val < 5 then const iv1 i.val else 0) ∧ s'.cur = 0 ∧ s'.fin = false ∧
    s'.ph = .block ∧ onlyWrites [.h, .cur, .fin, .ph] s s'

/-- R214: `H[0..7]` from `IV256`, `CUR` 0, `FIN` 0, phase BLOCK; nothing else. -/
def Obligations.DrvInitSha256StartsTheHash : Prop :=
  ∀ s : State, ∃ s', exec .drvInitSha256 s = .next s' ∧ (∀ i : Fin 8, s'.h[i] = const iv256 i.val) ∧ s'.cur = 0 ∧
    s'.fin = false ∧ s'.ph = .block ∧ onlyWrites [.h, .cur, .fin, .ph] s s'

/-- R215: the five sums modulo 2^32, no carry between words; `H[5..7]` not written; phase NEXT. -/
def Obligations.DrvFoldSha1AddsFiveWords : Prop :=
  ∀ s : State, ∃ s', exec .drvFoldSha1 s = .next s' ∧
    (∀ i : Fin 8, i.val < 5 → (s'.h[i]).toNat = ((s.h[i]).toNat + (s.v[i]).toNat) % 2 ^ 32) ∧
    (∀ i : Fin 8, 5 ≤ i.val → s'.h[i] = s.h[i]) ∧ s'.ph = .next ∧ onlyWrites [.h, .ph] s s'

/-- R216: the eight sums modulo 2^32; phase NEXT. -/
def Obligations.DrvFoldSha256AddsEightWords : Prop :=
  ∀ s : State, ∃ s', exec .drvFoldSha256 s = .next s' ∧
    (∀ i : Fin 8, (s'.h[i]).toNat = ((s.h[i]).toNat + (s.v[i]).toNat) % 2 ^ 32) ∧ s'.ph = .next ∧
    onlyWrites [.h, .ph] s s'

/-- R217: `CUR` grows by `CNS`; `FIN` chooses between DONE, `PH` keeping its value, and phase BLOCK. `H` is unchanged,
but for an operation that ends after the host changed its message (U3; log 6), where the digest words are any value;
even then `H[5..7]` of a SHA-1 operation are unchanged. -/
def Obligations.DrvNextAdvancesTheCursorAndLoops : Prop :=
  ∀ (s : State) (a : Alg), ∃ s', exec (.drvNext a) s = .next s' ∧
    s'.cur.toNat = (s.cur.toNat + s.cns.toNat) % 2 ^ 61 ∧
    (s.fin = true → s'.st = .done ∧ s'.ph = s.ph) ∧ (s.fin = false → s'.st = s.st ∧ s'.ph = .block) ∧
    onlyWrites [.h, .cur, .st, .ph] s s' ∧ (s.fin = true ∧ s.msgChanged = true ∨ s'.h = s.h) ∧
    (s.alg = .sha1 → s'.h[5] = s.h[5] ∧ s'.h[6] = s.h[6] ∧ s'.h[7] = s.h[7])

/-! ### The BlockBuilder (41_block_builder.md R160 to R173) -/

/-- R164: case F. -/
def Obligations.FullBlockCopiesSixtyFourBytes : Prop :=
  ∀ (s : State) (a : Alg), s.cur.toNat + 64 ≤ s.len.toNat →
    (∀ i, i < 64 → (Memory.read s.msg (s.cur.toNat + i)).isSome) →
    ∃ s', exec (.bbNext a) s = .next s' ∧
      (∀ i : Fin 64, some s'.blk[i] = Memory.read s.msg (s.cur.toNat + i.val)) ∧ s'.cns = 64 ∧ s'.fin = false ∧
      s'.ph = .parse ∧ onlyWrites [.blk, .cns, .fin, .ph] s s'

/-- R165: case T, for a remainder of 56 to 63 bytes. -/
def Obligations.TailBlockTakesTheTerminator : Prop :=
  ∀ (s : State) (a : Alg) (rem : Nat), s.cur.toNat + rem = s.len.toNat → 56 ≤ rem → rem ≤ 63 →
    (∀ i, i < rem → (Memory.read s.msg (s.cur.toNat + i)).isSome) →
    ∃ s', exec (.bbNext a) s = .next s' ∧
      (∀ i : Fin 64, (i.val < rem → some s'.blk[i] = Memory.read s.msg (s.cur.toNat + i.val)) ∧
        (i.val = rem → s'.blk[i] = 0x80) ∧ (rem < i.val → s'.blk[i] = 0)) ∧
      s'.cns.toNat = rem ∧ s'.fin = false ∧ s'.ph = .parse ∧ onlyWrites [.blk, .cns, .fin, .ph] s s'

/-- R166, R101: case L, for a remainder of 1 to 55 bytes; the length field is `8 x LEN`, most significant byte first. -/
def Obligations.LastBlockTakesTerminatorAndLength : Prop :=
  ∀ (s : State) (a : Alg) (rem : Nat), s.cur.toNat + rem = s.len.toNat → 1 ≤ rem → rem ≤ 55 →
    (∀ i, i < rem → (Memory.read s.msg (s.cur.toNat + i)).isSome) →
    ∃ s', exec (.bbNext a) s = .next s' ∧
      (∀ i : Fin 64, (i.val < rem → some s'.blk[i] = Memory.read s.msg (s.cur.toNat + i.val)) ∧
        (i.val = rem → s'.blk[i] = 0x80) ∧ (rem < i.val → i.val < 56 → s'.blk[i] = 0) ∧
        (56 ≤ i.val → (s'.blk[i]).toNat = 8 * s.len.toNat / 2 ^ (8 * (63 - i.val)) % 256)) ∧
      s'.cns = 0 ∧ s'.fin = true ∧ s'.ph = .parse ∧ onlyWrites [.blk, .cns, .fin, .ph] s s'

/-- R162: case P, all padding with the terminator; no message byte is read. -/
def Obligations.PaddingBlockAfterFullBlocksHasTerminator : Prop :=
  ∀ (s : State) (a : Alg), s.cur = s.len → s.len.toNat % 64 = 0 →
    ∃ s', exec (.bbNext a) s = .next s' ∧
      (∀ i : Fin 64, (i.val = 0 → s'.blk[i] = 0x80) ∧ (0 < i.val → i.val < 56 → s'.blk[i] = 0) ∧
        (56 ≤ i.val → (s'.blk[i]).toNat = 8 * s.len.toNat / 2 ^ (8 * (63 - i.val)) % 256)) ∧
      s'.cns = 0 ∧ s'.fin = true ∧ s'.ph = .parse ∧ onlyWrites [.blk, .cns, .fin, .ph] s s'

/-- R163: case Z, all padding without the terminator; no message byte is read. -/
def Obligations.PaddingBlockAfterTailHasNoTerminator : Prop :=
  ∀ (s : State) (a : Alg), s.cur = s.len → 56 ≤ s.len.toNat % 64 →
    ∃ s', exec (.bbNext a) s = .next s' ∧
      (∀ i : Fin 64, (i.val < 56 → s'.blk[i] = 0) ∧
        (56 ≤ i.val → (s'.blk[i]).toNat = 8 * s.len.toNat / 2 ^ (8 * (63 - i.val)) % 256)) ∧
      s'.cns = 0 ∧ s'.fin = true ∧ s'.ph = .parse ∧ onlyWrites [.blk, .cns, .fin, .ph] s s'

/-- R167, U1 (log 7): `BB.NEXT` is refused exactly outside the Driver's invariant, whatever the memory holds. -/
def Obligations.BlockBuilderRefusesExactlyOutsideTheInvariant : Prop :=
  ∀ (s : State) (a : Alg), exec (.bbNext a) s = .refused .cursorOutsideInvariant ↔
    (s.len.toNat < s.cur.toNat ∨
      (s.cur = s.len ∧ 1 ≤ s.len.toNat % 64 ∧ s.len.toNat % 64 ≤ 55))

/-- R71, R252, U4 (log 5): while the platform refuses a payload byte, the `BB.NEXT` step is not enabled. The meaning leaves
the state as it is, and a sequencer turn in PROCESSING at phase BLOCK only uses up the turn: the instance stays there,
with no error state, and the turns behind it run. -/
def Obligations.UnavailableByteLeavesTheBlockBuilderStuck : Prop :=
  ∀ (s : State) (a : Alg) (k : Nat), s.cur.toNat + k < s.len.toNat → k < 64 →
    Memory.read s.msg (s.cur.toNat + k) = none →
    exec (.bbNext a) s = .next s ∧
      (s.sequencerTurn → s.st = .processing → s.ph = .block → step s = .next s.consumeTurn)

/-- R168, R63: `BB.NEXT` reads only offsets `CUR` to `CUR + p - 1`, all below `LEN`: a memory that agrees there gives the
same block. -/
def Obligations.BlockBuilderReadsOnlyItsPayload : Prop :=
  ∀ (s s' : State) (a : Alg) (m : Memory) (c : PadCase), padCase s.len.toNat s.cur.toNat = some c →
    s.cur.toNat + payloadLength c (s.len.toNat - s.cur.toNat) ≤ s.len.toNat ∧
    ((∀ i, i < payloadLength c (s.len.toNat - s.cur.toNat) →
        Memory.read m (s.cur.toNat + i) = Memory.read s.msg (s.cur.toNat + i)) →
      exec (.bbNext a) s = .next s' → exec (.bbNext a) { s with msg := m } = .next { s' with msg := m })

/-- R172: after every `BB.NEXT` whose message bytes are readable, `FIN = 1` exactly when `CNS = 0`. -/
def Obligations.FinIsSetExactlyWhenNothingIsConsumed : Prop :=
  ∀ (s s' : State) (a : Alg), s.blockReadable → exec (.bbNext a) s = .next s' → (s'.fin = true ↔ s'.cns = 0)

/-- R170, R169: the padded message is `NB` whole blocks, the zero fill is the least that makes it so, and the two forms
of `NB` agree. -/
def Obligations.PaddedMessageFillsWholeBlocks : Prop :=
  ∀ m : List Byte, (pad m).length = 64 * blockCount m.length ∧ (m.length + 1 + zeroFill m.length) % 64 = 56 ∧
    (∀ k, k < zeroFill m.length → (m.length + 1 + k) % 64 ≠ 56) ∧
    blockCount m.length = m.length / 64 + 1 + (if 56 ≤ m.length % 64 then 1 else 0)

/-- R169, R173: block `j` of an operation, built at the cursor of R173, is piece `j` of the padded message, and `FIN` is
set on the last one only. -/
def Obligations.BlocksArePiecesOfThePaddedMessage : Prop :=
  ∀ (s : State) (a : Alg) (m : List Byte) (j : Nat), s.holds m → j < blockCount s.len.toNat →
    s.cur.toNat = cursorAt s.len.toNat j →
    ∃ s', exec (.bbNext a) s = .next s' ∧ s'.blk.toList = piece (pad m) j ∧
      (s'.fin = true ↔ j + 1 = blockCount s.len.toNat) ∧
      (s'.fin = false → s'.cur.toNat + s'.cns.toNat = cursorAt s.len.toNat (j + 1))

/-! ### The MessageScheduler (42_message_scheduler.md) -/

/-- R180: sixteen big-endian words, `W[16..79]` as they were, `T` 16, phase EXPAND. -/
def Obligations.ParseAssemblesBigEndianWords : Prop :=
  ∀ (s : State) (a : Alg), ∃ s', exec (.msParse a) s = .next s' ∧
    (∀ i : Fin 16, (s'.w[i.val]).toNat = (s.blk[4 * i.val]).toNat * 2 ^ 24 + (s.blk[4 * i.val + 1]).toNat * 2 ^ 16 +
      (s.blk[4 * i.val + 2]).toNat * 2 ^ 8 + (s.blk[4 * i.val + 3]).toNat) ∧
    (∀ i : Fin 80, 16 ≤ i.val → s'.w[i] = s.w[i]) ∧ s'.t = 16 ∧ s'.ph = .expand ∧ onlyWrites [.w, .t, .ph] s s'

/-- R181: one SHA-1 schedule word, every other word as it was; the next index, or phase LOAD after word 79. -/
def Obligations.Sha1ExpansionComputesOneWord : Prop :=
  ∀ (s : State) (t : Nat) (_ : 16 ≤ t) (_ : t < 80), s.t.toNat = t →
    ∃ s', exec .msExpSha1 s = .next s' ∧
      s'.w[t] = rotl (s.w[t - 3] ^^^ s.w[t - 8] ^^^ s.w[t - 14] ^^^ s.w[t - 16]) 1 ∧
      (∀ i : Fin 80, i.val ≠ t → s'.w[i] = s.w[i]) ∧ (t = 79 → s'.ph = .load ∧ s'.t = s.t) ∧
      (t ≠ 79 → s'.t.toNat = t + 1 ∧ s'.ph = s.ph) ∧ onlyWrites [.w, .t, .ph] s s'

/-- R182: one SHA-256 schedule word, the four-term sum modulo 2^32; the next index, or phase LOAD after word 63. -/
def Obligations.Sha256ExpansionComputesOneWord : Prop :=
  ∀ (s : State) (t : Nat) (_ : 16 ≤ t) (_ : t < 64), s.t.toNat = t →
    ∃ s', exec .msExpSha256 s = .next s' ∧
      (s'.w[t]).toNat = ((ssig1 s.w[t - 2]).toNat + (s.w[t - 7]).toNat + (ssig0 s.w[t - 15]).toNat +
        (s.w[t - 16]).toNat) % 2 ^ 32 ∧
      (∀ i : Fin 80, i.val ≠ t → s'.w[i] = s.w[i]) ∧ (t = 63 → s'.ph = .load ∧ s'.t = s.t) ∧
      (t ≠ 63 → s'.t.toNat = t + 1 ∧ s'.ph = s.ph) ∧ onlyWrites [.w, .t, .ph] s s'

/-- R184: from phase PARSE the sequencer builds the whole schedule of the block and reaches phase LOAD. -/
def Obligations.ScheduleIsBuiltFromTheBlock : Prop :=
  ∀ s : State, s.free → s.st = .processing → s.ph = .parse →
    ∃ s', runSteps (1 + (Config.nw s.alg - 16)) s = .next s' ∧ s'.ph = .load ∧
      (∀ t : Fin 80, t.val < Config.nw s.alg → s'.w[t] =
        ((match s.alg with | .sha1 => sched1 s.blk.toList | .sha256 => sched256 s.blk.toList).getD t.val 0)) ∧
      onlyWrites [.w, .t, .ph] s s'

/-! ### The Compressor (43_compressor.md) -/

/-- R190, R191: the working variables start as a copy of HashState, five or eight words, in order; `T` 0, phase ROUND.
(That they start so the spec supplies from general knowledge; log 13.) -/
def Obligations.LoadCopiesTheHashState : Prop :=
  ∀ s : State,
    (∃ s', exec .cpLoadSha1 s = .next s' ∧ (∀ i : Fin 8, s'.v[i] = if i.val < 5 then s.h[i] else s.v[i]) ∧
      s'.t = 0 ∧ s'.ph = .round ∧ onlyWrites [.v, .t, .ph] s s') ∧
    (∃ s', exec .cpLoadSha256 s = .next s' ∧ (∀ i : Fin 8, s'.v[i] = s.h[i]) ∧
      s'.t = 0 ∧ s'.ph = .round ∧ onlyWrites [.v, .t, .ph] s s')

/-- R192: one SHA-1 round; the next index, or phase FOLD after round 79. -/
def Obligations.Sha1RoundUpdatesTheVariables : Prop :=
  ∀ (s : State) (t : Nat) (_ : t < 80), s.t.toNat = t →
    ∃ s', exec .cpRndSha1 s = .next s' ∧
      (s'.v[0]).toNat = ((rotl s.v[0] 5).toNat + (f1 t s.v[1] s.v[2] s.v[3]).toNat + (s.v[4]).toNat +
        (k1sel t).toNat + (s.w[t]).toNat) % 2 ^ 32 ∧
      s'.v[1] = s.v[0] ∧ s'.v[2] = rotl s.v[1] 30 ∧ s'.v[3] = s.v[2] ∧ s'.v[4] = s.v[3] ∧
      s'.v[5] = s.v[5] ∧ s'.v[6] = s.v[6] ∧ s'.v[7] = s.v[7] ∧
      (t = 79 → s'.ph = .fold ∧ s'.t = s.t) ∧ (t ≠ 79 → s'.t.toNat = t + 1 ∧ s'.ph = s.ph) ∧
      onlyWrites [.v, .t, .ph] s s'

/-- R193: one SHA-256 round; the next index, or phase FOLD after round 63. -/
def Obligations.Sha256RoundUpdatesTheVariables : Prop :=
  ∀ (s : State) (t : Nat) (_ : t < 64), s.t.toNat = t →
    ∃ s' T1 T2, exec .cpRndSha256 s = .next s' ∧
      T1 = (s.v[7]).toNat + (bsig1 s.v[4]).toNat + (ch s.v[4] s.v[5] s.v[6]).toNat + (const k256 t).toNat +
        (s.w[t]).toNat ∧
      T2 = (bsig0 s.v[0]).toNat + (maj s.v[0] s.v[1] s.v[2]).toNat ∧
      (s'.v[0]).toNat = (T1 + T2) % 2 ^ 32 ∧ s'.v[1] = s.v[0] ∧ s'.v[2] = s.v[1] ∧ s'.v[3] = s.v[2] ∧
      (s'.v[4]).toNat = ((s.v[3]).toNat + T1) % 2 ^ 32 ∧ s'.v[5] = s.v[4] ∧ s'.v[6] = s.v[5] ∧ s'.v[7] = s.v[6] ∧
      (t = 63 → s'.ph = .fold ∧ s'.t = s.t) ∧ (t ≠ 63 → s'.t.toNat = t + 1 ∧ s'.ph = s.ph) ∧
      onlyWrites [.v, .t, .ph] s s'

/-- Log 8: where `T` is outside the range a rule states for it, the micro-operation is refused. -/
def Obligations.IndexOutsideItsRangeIsRefused : Prop :=
  ∀ s : State,
    (exec .msExpSha1 s = .refused .indexOutsideRange ↔ ¬ (16 ≤ s.t.toNat ∧ s.t.toNat ≤ 79)) ∧
    (exec .msExpSha256 s = .refused .indexOutsideRange ↔ ¬ (16 ≤ s.t.toNat ∧ s.t.toNat ≤ 63)) ∧
    (exec .cpRndSha1 s = .refused .indexOutsideRange ↔ ¬ s.t.toNat ≤ 79) ∧
    (exec .cpRndSha256 s = .refused .indexOutsideRange ↔ ¬ s.t.toNat ≤ 63)

/-- R195: from phase LOAD the sequencer runs all rounds; the working variables are the compression of `H` and `W`, and
`H` and `W` are unchanged. -/
def Obligations.RoundsComputeTheCompression : Prop :=
  ∀ s : State, s.free → s.st = .processing → s.ph = .load →
    ∃ s', runSteps (1 + Config.nr s.alg) s = .next s' ∧ s'.ph = .fold ∧
      (s.alg = .sha1 → comp1 ⟨s.h[0], s.h[1], s.h[2], s.h[3], s.h[4]⟩ s.w.toList =
        ⟨s'.v[0], s'.v[1], s'.v[2], s'.v[3], s'.v[4]⟩) ∧
      (s.alg = .sha256 →
        comp256 ⟨s.h[0], s.h[1], s.h[2], s.h[3], s.h[4], s.h[5], s.h[6], s.h[7]⟩ (s.w.toList.take 64) =
          ⟨s'.v[0], s'.v[1], s'.v[2], s'.v[3], s'.v[4], s'.v[5], s'.v[6], s'.v[7]⟩) ∧
      onlyWrites [.v, .t, .ph] s s'

/-! ### Word functions and tables (40_constants_wordops.md) -/

/-- R121, R122: a rotate by 1 to 31 moves every bit and loses none, and ROTR by `n` is ROTL by `32 - n`. (The formula is
the spec's general knowledge; log 13.) -/
def Obligations.RotatesMoveEveryBit : Prop :=
  ∀ (x : Word) (n : Nat), 1 ≤ n → n ≤ 31 →
    (∀ i, i < 32 → (rotl x n).getLsbD ((i + n) % 32) = x.getLsbD i) ∧
    (∀ i, i < 32 → (rotr x n).getLsbD i = x.getLsbD ((i + n) % 32)) ∧ rotr x n = rotl x (32 - n)

/-- R120, R123, R124, R125, R126: the word operations, as sums and quotients of numbers and bit by bit; a sum of several
terms may be taken in any order and is reduced once. -/
def Obligations.WordOperationsByNumberAndBit : Prop :=
  (∀ x y : Word, (add32 x y).toNat = (x.toNat + y.toNat) % 2 ^ 32) ∧
  (∀ ws us : List Word, ws.Perm us →
    (ws.foldl add32 0).toNat = (ws.map BitVec.toNat).sum % 2 ^ 32 ∧ us.foldl add32 0 = ws.foldl add32 0) ∧
  (∀ (x : Word) (n : Nat), 1 ≤ n → n ≤ 31 → (shr x n).toNat = x.toNat / 2 ^ n) ∧
  ∀ (x y z : Word) (i : Nat), i < 32 →
    (ch x y z).getLsbD i = (if x.getLsbD i then y.getLsbD i else z.getLsbD i) ∧
    (parity x y z).getLsbD i = (x.getLsbD i ^^ y.getLsbD i ^^ z.getLsbD i) ∧
    (maj x y z).getLsbD i = decide (2 ≤ (x.getLsbD i).toNat + (y.getLsbD i).toNat + (z.getLsbD i).toNat)

/-- R127, R128: the SHA-1 round function and round constant in each of the four ranges of rounds. -/
def Obligations.RoundSelectorsByRange : Prop :=
  ∀ (t : Nat) (x y z : Word), t ≤ 79 →
    (t ≤ 19 → f1 t x y z = ch x y z ∧ k1sel t = const k1 0) ∧
    (20 ≤ t → t ≤ 39 → f1 t x y z = parity x y z ∧ k1sel t = const k1 1) ∧
    (40 ≤ t → t ≤ 59 → f1 t x y z = maj x y z ∧ k1sel t = const k1 2) ∧
    (60 ≤ t → f1 t x y z = parity x y z ∧ k1sel t = const k1 3)

/-- R129 to R132: the sigma functions, bit by bit; a shifted-out bit is 0. (Which amount of a lower-case sigma is the
shift the spec supplies from general knowledge; log 13.) -/
def Obligations.SigmaFunctionsBitByBit : Prop :=
  ∀ (x : Word) (i : Nat), i < 32 →
    (bsig0 x).getLsbD i =
      (x.getLsbD ((i + 2) % 32) ^^ x.getLsbD ((i + 13) % 32) ^^ x.getLsbD ((i + 22) % 32)) ∧
    (bsig1 x).getLsbD i =
      (x.getLsbD ((i + 6) % 32) ^^ x.getLsbD ((i + 11) % 32) ^^ x.getLsbD ((i + 25) % 32)) ∧
    (ssig0 x).getLsbD i =
      (x.getLsbD ((i + 7) % 32) ^^ x.getLsbD ((i + 18) % 32) ^^ (decide (i + 3 < 32) && x.getLsbD (i + 3))) ∧
    (ssig1 x).getLsbD i =
      (x.getLsbD ((i + 17) % 32) ^^ x.getLsbD ((i + 19) % 32) ^^ (decide (i + 10 < 32) && x.getLsbD (i + 10)))

/-- R133 to R136: `IV1` as printed, `K1` as the floors of 2^30 times the square roots of 2, 3, 5, 10, `IV256` and `K256`
as the first 32 fractional bits of the square and cube roots of the first primes. (The values are the spec's general
knowledge; log 13.) -/
def Obligations.TablesMeetTheirArithmeticChecks : Prop :=
  iv1.map BitVec.toNat = [0x67452301, 0xEFCDAB89, 0x98BADCFE, 0x10325476, 0xC3D2E1F0] ∧
  k1.length = 4 ∧ iv256.length = 8 ∧ k256.length = 64 ∧
  (∀ p ∈ k1.zip [2, 3, 5, 10], p.1.toNat ^ 2 ≤ p.2 * 2 ^ 60 ∧ p.2 * 2 ^ 60 < (p.1.toNat + 1) ^ 2) ∧
  (∀ p ∈ iv256.zip [2, 3, 5, 7, 11, 13, 17, 19], ∃ r < 5,
    (r * 2 ^ 32 + p.1.toNat) ^ 2 ≤ p.2 * 2 ^ 64 ∧ p.2 * 2 ^ 64 < (r * 2 ^ 32 + p.1.toNat + 1) ^ 2) ∧
  (∀ p ∈ k256.zip ((List.range 312).filter Nat.Prime), ∃ r < 7,
    (r * 2 ^ 32 + p.1.toNat) ^ 3 ≤ p.2 * 2 ^ 96 ∧ p.2 * 2 ^ 96 < (r * 2 ^ 32 + p.1.toNat + 1) ^ 3)

/-! ### The whole machine

Where a statement below runs an operation over a readable message, the message stays readable to its end, as R70 requires
of the platform: the model has no turn that takes a byte away (log 17). -/

/-- The invariant holds in the state after reset. -/
def Obligations.ResetMeetsTheInvariant : Prop := State.reset.Inv

/-- R171, R172, R21, R27: every step, of whatever agent, keeps the invariant. Two of its clauses are the model's: the
canonical form of the message memory, and that the Driver is in IDLE while reset is asserted, which rests on the choice
that reset takes effect at the assertion (log 2). -/
def Obligations.EveryStepKeepsTheInvariant : Prop :=
  ∀ s s' : State, s.Inv → step s = .next s' → s'.Inv

/-- R220, R250, R252: from a state of the invariant the machine always has a next state: no fault, no refusal. Where the
platform refuses a message byte the spec says that the `BB.NEXT` step is not enabled (R71, U4); that the step then answers
the unchanged state, with its turn used up, is the model's choice (log 5), as is the held state where no turn is pending
and the sequencer has no step (log 3). -/
def Obligations.InvariantStatesAlwaysStep : Prop :=
  ∀ s : State, s.Inv → ∃ s', step s = .next s'

/-- R218: the successor table, for every enabled sequencer step from a state of the invariant. -/
def Obligations.SequencerFollowsTheSuccessorTable : Prop :=
  ∀ s s' : State, s.Inv → s.sequencerTurn → s.st = .processing → (s.ph = .block → s.blockReadable) →
    step s = .next s' → successor s s'

/-- R219: the state machine over `ST`, for every step of whatever agent. That the row for reset applies at the step that
asserts the input is the model's choice (log 2). -/
def Obligations.DriverStateChangesOnlyAsTheTableSays : Prop :=
  ∀ s s' : State, step s = .next s' →
    (s.assertsReset → s'.st = .idle) ∧
    (∀ a, s.acceptsCommand a → s'.st = .processing) ∧
    (s.performs [.next] → s.fin = true → s'.st = .done) ∧
    (¬ s.assertsReset → (∀ a, ¬ s.acceptsCommand a) → ¬ (s.performs [.next] ∧ s.fin = true) → s'.st = s.st)

/-- R32, R33: `ALG` changes only when a command is accepted or reset is asserted, and neither `ALG` nor `LEN` changes
while an operation runs, unless reset is asserted. -/
def Obligations.OperandsAreConstantDuringAnOperation : Prop :=
  ∀ s s' : State, step s = .next s' → ¬ s.assertsReset →
    (s'.alg ≠ s.alg → ∃ a, s.acceptsCommand a ∧ s'.alg = a) ∧
    (s.st = .processing → s'.alg = s.alg ∧ s'.len = s.len)

/-- R64, R73: message memory changes only by a store of the host or the platform, and then only at that byte; a store
always takes place and changes no register. That no byte ceases to be readable is the model's choice (log 17). -/
def Obligations.ProcessorNeverWritesMemory : Prop :=
  (∀ s s' : State, step s = .next s' → ∀ off : Nat,
    Memory.read s'.msg off = Memory.read s.msg off ∨
      ∃ (x : Length) (b : Byte) (rest : List Turn), s.turns = .store x b :: rest ∧ off = x.toNat ∧
        Memory.read s'.msg off = some b) ∧
  ∀ (s : State) (x : Length) (b : Byte) (rest : List Turn), s.turns = .store x b :: rest →
    ∃ s', step s = .next s' ∧ s'.turns = rest ∧ Memory.read s'.msg x.toNat = some b ∧
      (∀ off, off ≠ x.toNat → Memory.read s'.msg off = Memory.read s.msg off) ∧
      s'.inReset = s.inReset ∧ s'.rdata = s.rdata ∧ ∀ r : Reg, r.same s s'

/-- R20, the column 'written by', R21 to R31: each hidden register changes only in a step of the micro-operations that
write it, `PH` also when a command is accepted, or when reset is asserted. (`H` also when an operation ends whose message
the host changed; log 6.) -/
def Obligations.HiddenRegistersChangeOnlyByTheirWriters : Prop :=
  ∀ s s' : State, step s = .next s' → ¬ s.assertsReset →
    (s'.h ≠ s.h → s.performs [.init, .fold] ∨ (s.performs [.next] ∧ s.msgChanged = true)) ∧
    (s'.v ≠ s.v → s.performs [.load, .round]) ∧ (s'.w ≠ s.w → s.performs [.parse, .expand]) ∧
    (s'.blk ≠ s.blk → s.performs [.block]) ∧ (s'.cns ≠ s.cns → s.performs [.block]) ∧
    (s'.fin ≠ s.fin → s.performs [.init, .block]) ∧ (s'.cur ≠ s.cur → s.performs [.init, .next]) ∧
    (s'.t ≠ s.t → s.performs [.parse, .expand, .load, .round]) ∧
    (s'.ph ≠ s.ph → (∃ a, s.acceptsCommand a) ∨
      s.performs [.init, .block, .parse, .expand, .load, .round, .fold, .next])

/-- R218, R220, R291: a free-running operation over a readable message is PROCESSING for exactly `1 + NB x S` steps and
then in DONE. -/
def Obligations.OperationTakesExactlyTheStatedSteps : Prop :=
  ∀ s : State, s.free → s.st = .processing → s.ph = .init → s.messageReadable →
    (∀ k, k < operationSteps s.alg s.len.toNat → ∃ s', runSteps k s = .next s' ∧ s'.st = .processing) ∧
    ∃ s', runSteps (operationSteps s.alg s.len.toNat) s = .next s' ∧ s'.st = .done

/-- R210, R222: a SHA-1 command accepted with a message `m` in memory ends in DONE with `H[0..4] = sha1(m)` and
`H[5..7] = 0`, which the digest registers then read, whatever reads, writes, WAITs, sequencer turns and stores past the
message follow it. The instance is PROCESSING until then, for `1 + NB x S` sequencer steps and at most one step more for
each pending turn. -/
def Obligations.Sha1CommandDeliversTheDigest : Prop :=
  ∀ (s : State) (m : List Byte) (ts : List Turn), s.inReset = false → s.st ≠ .processing →
    s.turns = .write 0 0x00000001 :: ts → s.holds m → (∀ x ∈ ts, x.harmless s.len = true) →
    ∃ k s', 1 + operationSteps .sha1 s.len.toNat ≤ k ∧ k ≤ 1 + operationSteps .sha1 s.len.toNat + ts.length ∧
      (∀ j, 1 ≤ j → j < k → ∃ u, runSteps j s = .next u ∧ u.st = .processing) ∧
      runSteps k s = .next s' ∧ s'.st = .done ∧ s'.alg = .sha1 ∧ s'.len = s.len ∧ s'.h = (sha1 m).toH ∧
      ∀ i : Fin 8, readCsr s' (4 + i.val) = (sha1 m).toH[i]

/-- R211, R222: a SHA-256 command accepted with a message `m` in memory ends in DONE with `H[0..7] = sha256(m)`, which
the digest registers then read, whatever reads, writes, WAITs, sequencer turns and stores past the message follow it. The
instance is PROCESSING until then, for `1 + NB x S` sequencer steps and at most one step more for each pending turn. -/
def Obligations.Sha256CommandDeliversTheDigest : Prop :=
  ∀ (s : State) (m : List Byte) (ts : List Turn), s.inReset = false → s.st ≠ .processing →
    s.turns = .write 0 0x00000003 :: ts → s.holds m → (∀ x ∈ ts, x.harmless s.len = true) →
    ∃ k s', 1 + operationSteps .sha256 s.len.toNat ≤ k ∧ k ≤ 1 + operationSteps .sha256 s.len.toNat + ts.length ∧
      (∀ j, 1 ≤ j → j < k → ∃ u, runSteps j s = .next u ∧ u.st = .processing) ∧
      runSteps k s = .next s' ∧ s'.st = .done ∧ s'.alg = .sha256 ∧ s'.len = s.len ∧ s'.h = (sha256 m).toH ∧
      ∀ i : Fin 8, readCsr s' (4 + i.val) = (sha256 m).toH[i]

/-- R223, R46: the digest depends on `ALG`, `LEN` and the message alone, not on anything else the two states held before
the operation, nor on the host's accesses during it. -/
def Obligations.DigestDependsOnlyOnTheMessage : Prop :=
  ∀ s₁ s₂ : State, s₁.inReset = false → s₂.inReset = false → (∀ x ∈ s₁.turns, x.harmless s₁.len = true) →
    (∀ x ∈ s₂.turns, x.harmless s₂.len = true) → s₁.st = .processing → s₂.st = .processing → s₁.ph = .init →
    s₂.ph = .init → s₁.msgChanged = false → s₂.msgChanged = false → s₁.alg = s₂.alg → s₁.len = s₂.len →
    s₁.messageReadable →
    (∀ off, off < s₁.len.toNat → Memory.read s₁.msg off = Memory.read s₂.msg off) →
    ∃ k₁ k₂ t₁ t₂, runSteps k₁ s₁ = .next t₁ ∧ runSteps k₂ s₂ = .next t₂ ∧
      (∀ j, j < k₁ → ∃ u, runSteps j s₁ = .next u ∧ u.st = .processing) ∧
      (∀ j, j < k₂ → ∃ u, runSteps j s₂ = .next u ∧ u.st = .processing) ∧
      t₁.st = .done ∧ t₂.st = .done ∧ t₁.h = t₂.h

/-- R105 to R107, R222, R283: the host program `SHA1 n` or `SHA256 n`, after the stores of a message of `n` bytes, runs to
its end in DONE, and its reads return the digest words in order. -/
def Obligations.HostProgramsReadTheDigest : Prop :=
  ∀ (s : State) (m : List Byte), s.inReset = false → s.st ≠ .processing → m.length < 2 ^ 61 →
    (s.turns = msgTurns m ++ sha1Turns (BitVec.ofNat 61 m.length) →
      ∃ k s', runSteps k s = .next s' ∧ s'.turns = [] ∧ s'.st = .done ∧ s'.len.toNat = m.length ∧
        readData k s = (sha1 m).toH.toList.take 5) ∧
    (s.turns = msgTurns m ++ sha256Turns (BitVec.ofNat 61 m.length) →
      ∃ k s', runSteps k s = .next s' ∧ s'.turns = [] ∧ s'.st = .done ∧ s'.len.toNat = m.length ∧
        readData k s = (sha256 m).toH.toList)
end

