-- ==== Sys2Proof/Laws/Memory.lean ====
section
/-! SUPPORT. The laws of the message memory: a write is read back and leaves every other offset alone, writing keeps the
canonical form, and what a run of single-byte reads gives. -/

namespace Sys2Proof.Machine

@[simp] theorem read_nil (x : Nat) : Memory.read [] x = none := rfl

/-- A read of the offset just written gives the byte written. -/
@[simp] theorem read_write_same (m : Memory) (x : Nat) (b : Byte) : Memory.read (Memory.write m x b) x = some b := by
  induction m with
  | nil => simp [Memory.write, Memory.read]
  | cons p m ih =>
    obtain ⟨a, c⟩ := p
    simp only [Memory.write]
    split
    · simp [Memory.read]
    · split
      · simp [Memory.read]
      · rename_i h1 h2
        simp [Memory.read, ih, Ne.symm h2]

/-- A write leaves every other offset alone. -/
theorem read_write_other (m : Memory) (x y : Nat) (b : Byte) (h : y ≠ x) :
    Memory.read (Memory.write m x b) y = Memory.read m y := by
  induction m with
  | nil => simp [Memory.write, Memory.read, Ne.symm h]
  | cons p m ih =>
    obtain ⟨a, c⟩ := p
    simp only [Memory.write]
    split
    · simp [Memory.read, Ne.symm h]
    · split
      · rename_i h1 h2
        subst h2
        simp [Memory.read, Ne.symm h]
      · simp [Memory.read, ih]

theorem risingFrom_mono {lo lo' : Nat} {m : Memory} (hle : lo' ≤ lo) (h : Memory.risingFrom lo m = true) :
    Memory.risingFrom lo' m = true := by
  cases m with
  | nil => rfl
  | cons p m =>
    obtain ⟨a, c⟩ := p
    simp only [Memory.risingFrom, Bool.and_eq_true, decide_eq_true_eq] at h ⊢
    exact ⟨⟨by omega, h.1.2⟩, h.2⟩

theorem risingFrom_write (m : Memory) (x : Nat) (b : Byte) (hx : x < 2 ^ 61) :
    ∀ lo, lo ≤ x → Memory.risingFrom lo m = true → Memory.risingFrom lo (Memory.write m x b) = true := by
  induction m with
  | nil => intro lo hlo _; simp only [Memory.write, Memory.risingFrom, hlo, hx, decide_true, Bool.and_self]
  | cons p m ih =>
    obtain ⟨a, c⟩ := p
    intro lo hlo h
    simp only [Memory.risingFrom, Bool.and_eq_true, decide_eq_true_eq] at h
    simp only [Memory.write]
    split
    · simp only [Memory.risingFrom, Bool.and_eq_true, decide_eq_true_eq]
      exact ⟨⟨hlo, hx⟩, ⟨by omega, h.1.2⟩, h.2⟩
    · split
      · rename_i h1 h2
        subst h2
        simp only [Memory.risingFrom, Bool.and_eq_true, decide_eq_true_eq]
        exact ⟨⟨hlo, hx⟩, h.2⟩
      · simp only [Memory.risingFrom, Bool.and_eq_true, decide_eq_true_eq]
        exact ⟨h.1, ih (a + 1) (by omega) h.2⟩

/-- Writing a byte inside the offset space keeps the canonical form. -/
theorem write_keeps_wf (m : Memory) (off : Length) (b : Byte) (h : Memory.wf m = true) :
    Memory.wf (Memory.write m off.toNat b) = true :=
  risingFrom_write m off.toNat b off.isLt 0 (Nat.zero_le _) h

theorem reset_memory_wf : Memory.wf State.reset.msg = true := rfl

/-- What `n` reads give, byte by byte: they succeed with `bs` exactly when `bs` has `n` bytes and each offset holds its
byte. -/
theorem readBytes_eq_some_iff (m : Memory) (n off : Nat) (bs : List Byte) :
    readBytes m off n = some bs ↔ bs.length = n ∧ ∀ i, i < n → Memory.read m (off + i) = bs[i]? := by
  induction n generalizing off bs with
  | zero =>
    simp only [readBytes, Option.some.injEq]
    constructor
    · rintro rfl; simp
    · rintro ⟨h, _⟩; exact (List.length_eq_zero_iff.mp h).symm
  | succ n ih =>
    simp only [readBytes]
    cases hb : Memory.read m off with
    | none =>
      simp only [reduceCtorEq, false_iff]
      rintro ⟨hl, h⟩
      have := h 0 (by omega)
      rw [Nat.add_zero, hb] at this
      rw [eq_comm, List.getElem?_eq_none_iff] at this
      omega
    | some b =>
      cases hr : readBytes m (off + 1) n with
      | none =>
        simp only [reduceCtorEq, false_iff]
        rintro ⟨hl, h⟩
        cases bs with
        | nil => simp at hl
        | cons c cs =>
          have : readBytes m (off + 1) n = some cs := by
            rw [ih]
            refine ⟨by simpa using hl, fun i hi => ?_⟩
            have := h (i + 1) (by omega)
            simpa [Nat.add_assoc, Nat.add_comm 1 i] using this
          rw [hr] at this
          cases this
      | some cs =>
        obtain ⟨hl, h⟩ := (ih (off + 1) cs).mp hr
        simp only [Option.some.injEq]
        constructor
        · rintro rfl
          refine ⟨by simp [hl], fun i hi => ?_⟩
          cases i with
          | zero => simpa using hb
          | succ i =>
            have := h i (by omega)
            simpa [Nat.add_assoc, Nat.add_comm 1 i] using this
        · rintro ⟨hl', h'⟩
          cases bs with
          | nil => simp at hl'
          | cons c ds =>
            have h0 := h' 0 (by omega)
            rw [Nat.add_zero, hb] at h0
            simp only [List.getElem?_cons_zero, Option.some.injEq] at h0
            have : readBytes m (off + 1) n = some ds := by
              rw [ih]
              refine ⟨by simpa using hl', fun i hi => ?_⟩
              have := h' (i + 1) (by omega)
              simpa [Nat.add_assoc, Nat.add_comm 1 i] using this
            rw [hr] at this
            cases this
            rw [h0]

/-- Reads fail when one of the offsets has no byte. -/
theorem readBytes_eq_none {m : Memory} {n off k : Nat} (hk : k < n) (hnone : Memory.read m (off + k) = none) :
    readBytes m off n = none := by
  cases h : readBytes m off n with
  | none => rfl
  | some bs =>
    obtain ⟨hl, hr⟩ := (readBytes_eq_some_iff m n off bs).mp h
    have := hr k hk
    rw [hnone, List.getElem?_eq_getElem (by omega)] at this
    cases this

/-- Reads succeed when every offset has a byte. -/
theorem readBytes_isSome (m : Memory) (n off : Nat) (h : ∀ i, i < n → (Memory.read m (off + i)).isSome) :
    ∃ bs, readBytes m off n = some bs := by
  induction n generalizing off with
  | zero => exact ⟨[], rfl⟩
  | succ n ih =>
    obtain ⟨b, hb⟩ := Option.isSome_iff_exists.mp (h 0 (by omega))
    simp only [Nat.add_zero] at hb
    obtain ⟨bs, hbs⟩ := ih (off + 1)
      (fun i hi => by have := h (i + 1) (by omega); rwa [show off + 1 + i = off + (i + 1) by omega])
    exact ⟨b :: bs, by simp [readBytes, hb, hbs]⟩

/-- Memories that agree on a stretch read the same there. -/
theorem readBytes_congr {m m' : Memory} {off n : Nat}
    (h : ∀ i, i < n → Memory.read m (off + i) = Memory.read m' (off + i)) :
    readBytes m off n = readBytes m' off n := by
  induction n generalizing off with
  | zero => rfl
  | succ n ih =>
    have h0 := h 0 (by omega)
    have := ih (off := off + 1)
      (fun i hi => by have := h (i + 1) (by omega); rwa [show off + 1 + i = off + (i + 1) by omega])
    simp only [Nat.add_zero] at h0
    simp [readBytes, h0, this]

/-- A stretch of the message: reading `k` bytes at `off` inside a message that reads as `bs`. -/
theorem readBytes_slice (m : Memory) (n off k : Nat) (bs : List Byte) (h : readBytes m 0 n = some bs)
    (hk : off + k ≤ n) : readBytes m off k = some ((bs.drop off).take k) := by
  obtain ⟨hl, hr⟩ := (readBytes_eq_some_iff m n 0 bs).mp h
  rw [readBytes_eq_some_iff]
  refine ⟨by simp; omega, fun i hi => ?_⟩
  have := hr (off + i) (by omega)
  rw [Nat.zero_add] at this
  rw [this, List.getElem?_take_of_lt hi, List.getElem?_drop]

end Sys2Proof.Machine
end

