-- ==== Sys2Proof/Laws/Numbers.lean ====
section
/-! SUPPORT. The word operations bit by bit and the operand forms as numbers. -/

namespace Sys2Proof.Machine

/-! ### Word operations -/

theorem add32_toNat (x y : Word) : (add32 x y).toNat = (x.toNat + y.toNat) % 2 ^ 32 := by simp [add32]

/-- A bit of a left rotate. -/
theorem rotl_bit (x : Word) (n i : Nat) (h1 : 1 ≤ n) (h2 : n ≤ 31) (hi : i < 32) :
    (rotl x n).getLsbD i = x.getLsbD ((i + (32 - n)) % 32) := by
  unfold rotl
  rw [BitVec.getLsbD_or, BitVec.getLsbD_shiftLeft, BitVec.getLsbD_ushiftRight]
  by_cases h : i < n
  · rw [Nat.mod_eq_of_lt (by omega)]; simp [hi, h, Nat.add_comm]
  · rw [show (i + (32 - n)) % 32 = i - n by omega]
    have hz : x.getLsbD (32 - n + i) = false := BitVec.getLsbD_of_ge _ _ (by omega)
    simp [hi, h, hz]

/-- A bit of a right rotate. -/
theorem rotr_bit (x : Word) (n i : Nat) (h1 : 1 ≤ n) (h2 : n ≤ 31) (hi : i < 32) :
    (rotr x n).getLsbD i = x.getLsbD ((i + n) % 32) := by
  rw [rotr, rotl_bit _ _ _ (by omega) (by omega) hi, show 32 - (32 - n) = n by omega]

/-- A bit of a logical right shift: zeros come in from above. -/
theorem shr_bit (x : Word) (n i : Nat) : (shr x n).getLsbD i = (decide (i + n < 32) && x.getLsbD (i + n)) := by
  rw [shr, BitVec.getLsbD_ushiftRight, Nat.add_comm]
  by_cases h : i + n < 32
  · simp [h]
  · simp only [h, decide_false, Bool.false_and]; exact BitVec.getLsbD_of_ge _ _ (by omega)

/-! ### Operand forms -/

theorem schedWord_eq (w : Vector Word 80) (i : Nat) (h : i < 80) : schedWord w i = w[i] := by simp [schedWord, h]

theorem blockByte_eq (b : Vector Byte 64) (i : Nat) (h : i < 64) : blockByte b i = b[i] := by simp [blockByte, h]

/-- A big-endian word as a number. -/
theorem blockWord_toNat (b : Vector Byte 64) (i : Nat) (hi : i < 16) :
    (blockWord b i).toNat = (b[4 * i]).toNat * 2 ^ 24 + (b[4 * i + 1]).toNat * 2 ^ 16 +
      (b[4 * i + 2]).toNat * 2 ^ 8 + (b[4 * i + 3]).toNat := by
  unfold blockWord
  rw [blockByte_eq _ _ (by omega), blockByte_eq _ _ (by omega), blockByte_eq _ _ (by omega),
    blockByte_eq _ _ (by omega)]
  have h0 := (b[4 * i]).isLt; have h1 := (b[4 * i + 1]).isLt
  have h2 := (b[4 * i + 2]).isLt; have h3 := (b[4 * i + 3]).isLt
  simp only [BitVec.toNat_append]
  rw [← Nat.shiftLeft_add_eq_or_of_lt h1, ← Nat.shiftLeft_add_eq_or_of_lt h2, ← Nat.shiftLeft_add_eq_or_of_lt h3]
  simp only [Nat.shiftLeft_eq]; omega

theorem toBlock_get (bs : List Byte) (i : Nat) (h : i < 64) : (toBlock bs)[i] = bs.getD i 0 := by simp [toBlock]

/-- A block is given back by its list of bytes. -/
theorem toBlock_toList (bs : List Byte) (h : bs.length = 64) : (toBlock bs).toList = bs := by
  apply List.ext_getElem
  · simp [h]
  · intro i h1 h2
    have : i < 64 := by omega
    simp [toBlock, h2]

theorem bitLength_toNat (l : Length) : (bitLength l).toNat = 8 * l.toNat := by
  have := l.isLt
  show (l ++ 0#3).toNat = _
  rw [BitVec.toNat_append]
  simp [Nat.shiftLeft_eq]; omega

theorem be64_length (n : BitVec 64) : (be64 n).length = 8 := by simp [be64]

/-- A byte of a 64-bit value, most significant first. -/
theorem be64_getD (n : BitVec 64) (j : Nat) (hj : j < 8) :
    ((be64 n).getD j 0).toNat = n.toNat / 2 ^ (8 * (7 - j)) % 256 := by
  rw [be64, List.getD_eq_getElem?_getD, List.getElem?_map, List.getElem?_range hj]
  simp [Nat.shiftRight_eq_div_pow]
  congr 3; omega

/-- A byte of the length field. -/
theorem lengthField_getD (l : Length) (i : Nat) (h : i < 8) :
    ((lengthField l).getD i 0).toNat = 8 * l.toNat / 2 ^ (8 * (7 - i)) % 256 := by
  rw [lengthField, be64_getD _ _ h, bitLength_toNat]

theorem getD_append (a b : List Byte) (i : Nat) :
    (a ++ b).getD i 0 = if i < a.length then a.getD i 0 else b.getD (i - a.length) 0 := by
  simp only [List.getD_eq_getElem?_getD]
  split
  · rw [List.getElem?_append_left (by assumption)]
  · rw [List.getElem?_append_right (by omega)]

theorem getD_zeros (n i : Nat) : (List.replicate n (0 : Byte)).getD i 0 = 0 := by
  simp only [List.getD_eq_getElem?_getD, List.getElem?_replicate]; split <;> rfl

theorem lenLo_toNat (l : Length) : (lenLo l).toNat = l.toNat % 2 ^ 32 := by simp [lenLo]

theorem lenHi_toNat (l : Length) : (lenHi l).toNat = l.toNat / 2 ^ 32 := by
  simp [lenHi, Nat.shiftRight_eq_div_pow]; have := l.isLt; omega

theorem withLenLo_toNat (l : Length) (v : Word) :
    (withLenLo l v).toNat = l.toNat / 2 ^ 32 * 2 ^ 32 + v.toNat := by
  have := l.isLt; have := v.isLt
  simp only [withLenLo, BitVec.toNat_append, BitVec.extractLsb'_toNat, Nat.shiftRight_eq_div_pow]
  rw [← Nat.shiftLeft_add_eq_or_of_lt v.isLt, Nat.shiftLeft_eq]; omega

theorem withLenHi_toNat (l : Length) (v : Word) :
    (withLenHi l v).toNat = v.toNat % 2 ^ 29 * 2 ^ 32 + l.toNat % 2 ^ 32 := by
  have := l.isLt; have := v.isLt
  simp only [withLenHi, BitVec.toNat_append, BitVec.extractLsb'_toNat, Nat.shiftRight_eq_div_pow]
  rw [← Nat.shiftLeft_add_eq_or_of_lt (by omega), Nat.shiftLeft_eq]; omega

/-! ### The cases of the BlockBuilder -/

/-- Where the BlockBuilder has no case (R167). -/
theorem padCase_eq_none_iff (l c : Nat) :
    padCase l c = none ↔ (l < c ∨ (c = l ∧ 1 ≤ l % 64 ∧ l % 64 ≤ 55)) := by
  unfold padCase; split_ifs <;> simp <;> omega

/-- The condition under which the BlockBuilder takes a case (R161). -/
def caseGuard (l c : Nat) : PadCase → Prop
  | .full => 64 ≤ l - c
  | .tail => 56 ≤ l - c ∧ l - c ≤ 63
  | .last => 1 ≤ l - c ∧ l - c ≤ 55
  | .padWithTerm => l = c ∧ l % 64 = 0
  | .padWithoutTerm => l = c ∧ 56 ≤ l % 64

/-- The BlockBuilder takes a case exactly under its condition (R161). -/
theorem padCase_eq_some_iff {l c : Nat} {k : PadCase} : padCase l c = some k ↔ c ≤ l ∧ caseGuard l c k := by
  unfold padCase
  split_ifs <;> cases k <;> simp [caseGuard] <;> omega

theorem padCase_eq_some {l c : Nat} {k : PadCase} (h : padCase l c = some k) : c ≤ l ∧ caseGuard l c k :=
  padCase_eq_some_iff.mp h

/-- No payload reaches past the message (R63, R168). -/
theorem payload_le {l c : Nat} {k : PadCase} (h : padCase l c = some k) : c + payloadLength k (l - c) ≤ l := by
  have := padCase_eq_some h
  cases k <;> simp only [payloadLength, caseGuard] at * <;> omega

/-- `CNS` as a number. -/
theorem consumed_toNat {l c : Nat} {k : PadCase} (h : padCase l c = some k) :
    (consumed k (l - c)).toNat = match (generalizing := false) k with
      | .full => 64
      | .tail => l - c
      | .last => 0
      | .padWithTerm => 0
      | .padWithoutTerm => 0 := by
  have := padCase_eq_some h
  cases k <;> simp [consumed, caseGuard] at *
  omega

/-- Every case builds 64 bytes. -/
theorem blockBytes_length {l c : Nat} {k : PadCase} (h : caseGuard l c k) (p : List Byte) (len : Length)
    (hp : p.length = payloadLength k (l - c)) : (blockBytes k p (l - c) len).length = 64 := by
  cases k <;> simp only [payloadLength, caseGuard] at hp h <;>
    simp [blockBytes, lengthField, be64_length, hp] <;> omega

end Sys2Proof.Machine
end

