-- ==== Sys2Proof/Laws/State.lean ====
section
/-! SUPPORT. One lemma for each field and each named update of the state, so that no later proof unfolds a record
update. The name says the update and the field; fields an update leaves alone are stated as well as those it writes. -/

namespace Sys2Proof.Machine

/-! ### popTurn -/

@[simp] theorem popTurn_h (s : State) : (s.popTurn).h = s.h := rfl
@[simp] theorem popTurn_v (s : State) : (s.popTurn).v = s.v := rfl
@[simp] theorem popTurn_w (s : State) : (s.popTurn).w = s.w := rfl
@[simp] theorem popTurn_blk (s : State) : (s.popTurn).blk = s.blk := rfl
@[simp] theorem popTurn_len (s : State) : (s.popTurn).len = s.len := rfl
@[simp] theorem popTurn_cur (s : State) : (s.popTurn).cur = s.cur := rfl
@[simp] theorem popTurn_cns (s : State) : (s.popTurn).cns = s.cns := rfl
@[simp] theorem popTurn_fin (s : State) : (s.popTurn).fin = s.fin := rfl
@[simp] theorem popTurn_t (s : State) : (s.popTurn).t = s.t := rfl
@[simp] theorem popTurn_alg (s : State) : (s.popTurn).alg = s.alg := rfl
@[simp] theorem popTurn_st (s : State) : (s.popTurn).st = s.st := rfl
@[simp] theorem popTurn_ph (s : State) : (s.popTurn).ph = s.ph := rfl
@[simp] theorem popTurn_inReset (s : State) : (s.popTurn).inReset = s.inReset := rfl
@[simp] theorem popTurn_msg (s : State) : (s.popTurn).msg = s.msg := rfl
@[simp] theorem popTurn_turns (s : State) : (s.popTurn).turns = s.turns.tail := rfl
@[simp] theorem popTurn_rdata (s : State) : (s.popTurn).rdata = s.rdata := rfl
@[simp] theorem popTurn_msgChanged (s : State) : (s.popTurn).msgChanged = s.msgChanged := rfl
@[simp] theorem popTurn_draws (s : State) : (s.popTurn).draws = s.draws := rfl

/-! ### accept -/

@[simp] theorem accept_h (s : State) (a : Alg) : (s.accept a).h = s.h := rfl
@[simp] theorem accept_v (s : State) (a : Alg) : (s.accept a).v = s.v := rfl
@[simp] theorem accept_w (s : State) (a : Alg) : (s.accept a).w = s.w := rfl
@[simp] theorem accept_blk (s : State) (a : Alg) : (s.accept a).blk = s.blk := rfl
@[simp] theorem accept_len (s : State) (a : Alg) : (s.accept a).len = s.len := rfl
@[simp] theorem accept_cur (s : State) (a : Alg) : (s.accept a).cur = s.cur := rfl
@[simp] theorem accept_cns (s : State) (a : Alg) : (s.accept a).cns = s.cns := rfl
@[simp] theorem accept_fin (s : State) (a : Alg) : (s.accept a).fin = s.fin := rfl
@[simp] theorem accept_t (s : State) (a : Alg) : (s.accept a).t = s.t := rfl
@[simp] theorem accept_alg (s : State) (a : Alg) : (s.accept a).alg = a := rfl
@[simp] theorem accept_st (s : State) (a : Alg) : (s.accept a).st = .processing := rfl
@[simp] theorem accept_ph (s : State) (a : Alg) : (s.accept a).ph = .init := rfl
@[simp] theorem accept_inReset (s : State) (a : Alg) : (s.accept a).inReset = s.inReset := rfl
@[simp] theorem accept_msg (s : State) (a : Alg) : (s.accept a).msg = s.msg := rfl
@[simp] theorem accept_turns (s : State) (a : Alg) : (s.accept a).turns = s.turns := rfl
@[simp] theorem accept_rdata (s : State) (a : Alg) : (s.accept a).rdata = s.rdata := rfl
@[simp] theorem accept_msgChanged (s : State) (a : Alg) : (s.accept a).msgChanged = false := rfl
@[simp] theorem accept_draws (s : State) (a : Alg) : (s.accept a).draws = s.draws := rfl

/-! ### putWord -/

@[simp] theorem putWord_h (s : State) (t : Nat) (x : Word) : (s.putWord t x).h = s.h := rfl
@[simp] theorem putWord_v (s : State) (t : Nat) (x : Word) : (s.putWord t x).v = s.v := rfl
@[simp] theorem putWord_w (s : State) (t : Nat) (x : Word) : (s.putWord t x).w = s.w.setIfInBounds t x := rfl
@[simp] theorem putWord_blk (s : State) (t : Nat) (x : Word) : (s.putWord t x).blk = s.blk := rfl
@[simp] theorem putWord_len (s : State) (t : Nat) (x : Word) : (s.putWord t x).len = s.len := rfl
@[simp] theorem putWord_cur (s : State) (t : Nat) (x : Word) : (s.putWord t x).cur = s.cur := rfl
@[simp] theorem putWord_cns (s : State) (t : Nat) (x : Word) : (s.putWord t x).cns = s.cns := rfl
@[simp] theorem putWord_fin (s : State) (t : Nat) (x : Word) : (s.putWord t x).fin = s.fin := rfl
@[simp] theorem putWord_t (s : State) (t : Nat) (x : Word) : (s.putWord t x).t = s.t := rfl
@[simp] theorem putWord_alg (s : State) (t : Nat) (x : Word) : (s.putWord t x).alg = s.alg := rfl
@[simp] theorem putWord_st (s : State) (t : Nat) (x : Word) : (s.putWord t x).st = s.st := rfl
@[simp] theorem putWord_ph (s : State) (t : Nat) (x : Word) : (s.putWord t x).ph = s.ph := rfl
@[simp] theorem putWord_inReset (s : State) (t : Nat) (x : Word) : (s.putWord t x).inReset = s.inReset := rfl
@[simp] theorem putWord_msg (s : State) (t : Nat) (x : Word) : (s.putWord t x).msg = s.msg := rfl
@[simp] theorem putWord_turns (s : State) (t : Nat) (x : Word) : (s.putWord t x).turns = s.turns := rfl
@[simp] theorem putWord_rdata (s : State) (t : Nat) (x : Word) : (s.putWord t x).rdata = s.rdata := rfl
@[simp] theorem putWord_msgChanged (s : State) (t : Nat) (x : Word) : (s.putWord t x).msgChanged = s.msgChanged := rfl
@[simp] theorem putWord_draws (s : State) (t : Nat) (x : Word) : (s.putWord t x).draws = s.draws := rfl

/-! ### nextIndex -/

@[simp] theorem nextIndex_h (s : State) (last : Nat) (p : Phase) : (s.nextIndex last p).h = s.h := by unfold State.nextIndex; split <;> rfl
@[simp] theorem nextIndex_v (s : State) (last : Nat) (p : Phase) : (s.nextIndex last p).v = s.v := by unfold State.nextIndex; split <;> rfl
@[simp] theorem nextIndex_w (s : State) (last : Nat) (p : Phase) : (s.nextIndex last p).w = s.w := by unfold State.nextIndex; split <;> rfl
@[simp] theorem nextIndex_blk (s : State) (last : Nat) (p : Phase) : (s.nextIndex last p).blk = s.blk := by unfold State.nextIndex; split <;> rfl
@[simp] theorem nextIndex_len (s : State) (last : Nat) (p : Phase) : (s.nextIndex last p).len = s.len := by unfold State.nextIndex; split <;> rfl
@[simp] theorem nextIndex_cur (s : State) (last : Nat) (p : Phase) : (s.nextIndex last p).cur = s.cur := by unfold State.nextIndex; split <;> rfl
@[simp] theorem nextIndex_cns (s : State) (last : Nat) (p : Phase) : (s.nextIndex last p).cns = s.cns := by unfold State.nextIndex; split <;> rfl
@[simp] theorem nextIndex_fin (s : State) (last : Nat) (p : Phase) : (s.nextIndex last p).fin = s.fin := by unfold State.nextIndex; split <;> rfl
@[simp] theorem nextIndex_t (s : State) (last : Nat) (p : Phase) : (s.nextIndex last p).t = if s.t.toNat = last then s.t else s.t + 1 := by unfold State.nextIndex; split <;> rfl
@[simp] theorem nextIndex_alg (s : State) (last : Nat) (p : Phase) : (s.nextIndex last p).alg = s.alg := by unfold State.nextIndex; split <;> rfl
@[simp] theorem nextIndex_st (s : State) (last : Nat) (p : Phase) : (s.nextIndex last p).st = s.st := by unfold State.nextIndex; split <;> rfl
@[simp] theorem nextIndex_ph (s : State) (last : Nat) (p : Phase) : (s.nextIndex last p).ph = if s.t.toNat = last then p else s.ph := by unfold State.nextIndex; split <;> rfl
@[simp] theorem nextIndex_inReset (s : State) (last : Nat) (p : Phase) : (s.nextIndex last p).inReset = s.inReset := by unfold State.nextIndex; split <;> rfl
@[simp] theorem nextIndex_msg (s : State) (last : Nat) (p : Phase) : (s.nextIndex last p).msg = s.msg := by unfold State.nextIndex; split <;> rfl
@[simp] theorem nextIndex_turns (s : State) (last : Nat) (p : Phase) : (s.nextIndex last p).turns = s.turns := by unfold State.nextIndex; split <;> rfl
@[simp] theorem nextIndex_rdata (s : State) (last : Nat) (p : Phase) : (s.nextIndex last p).rdata = s.rdata := by unfold State.nextIndex; split <;> rfl
@[simp] theorem nextIndex_msgChanged (s : State) (last : Nat) (p : Phase) : (s.nextIndex last p).msgChanged = s.msgChanged := by unfold State.nextIndex; split <;> rfl
@[simp] theorem nextIndex_draws (s : State) (last : Nat) (p : Phase) : (s.nextIndex last p).draws = s.draws := by unfold State.nextIndex; split <;> rfl

/-! ### freeDigest -/

@[simp] theorem freeDigest_v (s : State) : (s.freeDigest).v = s.v := rfl
@[simp] theorem freeDigest_w (s : State) : (s.freeDigest).w = s.w := rfl
@[simp] theorem freeDigest_blk (s : State) : (s.freeDigest).blk = s.blk := rfl
@[simp] theorem freeDigest_len (s : State) : (s.freeDigest).len = s.len := rfl
@[simp] theorem freeDigest_cur (s : State) : (s.freeDigest).cur = s.cur := rfl
@[simp] theorem freeDigest_cns (s : State) : (s.freeDigest).cns = s.cns := rfl
@[simp] theorem freeDigest_fin (s : State) : (s.freeDigest).fin = s.fin := rfl
@[simp] theorem freeDigest_t (s : State) : (s.freeDigest).t = s.t := rfl
@[simp] theorem freeDigest_alg (s : State) : (s.freeDigest).alg = s.alg := rfl
@[simp] theorem freeDigest_st (s : State) : (s.freeDigest).st = s.st := rfl
@[simp] theorem freeDigest_ph (s : State) : (s.freeDigest).ph = s.ph := rfl
@[simp] theorem freeDigest_inReset (s : State) : (s.freeDigest).inReset = s.inReset := rfl
@[simp] theorem freeDigest_msg (s : State) : (s.freeDigest).msg = s.msg := rfl
@[simp] theorem freeDigest_turns (s : State) : (s.freeDigest).turns = s.turns := rfl
@[simp] theorem freeDigest_rdata (s : State) : (s.freeDigest).rdata = s.rdata := rfl
@[simp] theorem freeDigest_msgChanged (s : State) : (s.freeDigest).msgChanged = s.msgChanged := rfl
@[simp] theorem freeDigest_draws (s : State) : (s.freeDigest).draws = s.draws + 1 := rfl

/-! ### finish -/

@[simp] theorem finish_h (s : State) : (s.finish).h = if s.msgChanged then s.freeDigest.h else s.h := by unfold State.finish; split <;> rfl
@[simp] theorem finish_v (s : State) : (s.finish).v = s.v := by unfold State.finish; split <;> rfl
@[simp] theorem finish_w (s : State) : (s.finish).w = s.w := by unfold State.finish; split <;> rfl
@[simp] theorem finish_blk (s : State) : (s.finish).blk = s.blk := by unfold State.finish; split <;> rfl
@[simp] theorem finish_len (s : State) : (s.finish).len = s.len := by unfold State.finish; split <;> rfl
@[simp] theorem finish_cur (s : State) : (s.finish).cur = s.cur := by unfold State.finish; split <;> rfl
@[simp] theorem finish_cns (s : State) : (s.finish).cns = s.cns := by unfold State.finish; split <;> rfl
@[simp] theorem finish_fin (s : State) : (s.finish).fin = s.fin := by unfold State.finish; split <;> rfl
@[simp] theorem finish_t (s : State) : (s.finish).t = s.t := by unfold State.finish; split <;> rfl
@[simp] theorem finish_alg (s : State) : (s.finish).alg = s.alg := by unfold State.finish; split <;> rfl
@[simp] theorem finish_st (s : State) : (s.finish).st = .done := by unfold State.finish; split <;> rfl
@[simp] theorem finish_ph (s : State) : (s.finish).ph = s.ph := by unfold State.finish; split <;> rfl
@[simp] theorem finish_inReset (s : State) : (s.finish).inReset = s.inReset := by unfold State.finish; split <;> rfl
@[simp] theorem finish_msg (s : State) : (s.finish).msg = s.msg := by unfold State.finish; split <;> rfl
@[simp] theorem finish_turns (s : State) : (s.finish).turns = s.turns := by unfold State.finish; split <;> rfl
@[simp] theorem finish_rdata (s : State) : (s.finish).rdata = s.rdata := by unfold State.finish; split <;> rfl
@[simp] theorem finish_msgChanged (s : State) : (s.finish).msgChanged = s.msgChanged := by unfold State.finish; split <;> rfl
@[simp] theorem finish_draws (s : State) : (s.finish).draws = if s.msgChanged then s.draws + 1 else s.draws := by unfold State.finish; split <;> rfl

/-! ### enterReset -/

@[simp] theorem enterReset_len (s : State) : (s.enterReset).len = 0 := rfl
@[simp] theorem enterReset_alg (s : State) : (s.enterReset).alg = .sha1 := rfl
@[simp] theorem enterReset_st (s : State) : (s.enterReset).st = .idle := rfl
@[simp] theorem enterReset_inReset (s : State) : (s.enterReset).inReset = true := rfl
@[simp] theorem enterReset_msg (s : State) : (s.enterReset).msg = s.msg := rfl
@[simp] theorem enterReset_turns (s : State) : (s.enterReset).turns = s.turns := rfl
@[simp] theorem enterReset_rdata (s : State) : (s.enterReset).rdata = s.rdata := rfl
@[simp] theorem enterReset_msgChanged (s : State) : (s.enterReset).msgChanged = false := rfl
@[simp] theorem enterReset_draws (s : State) : (s.enterReset).draws = s.draws + 1 := rfl

/-! ### storeMessage -/

@[simp] theorem storeMessage_h (s : State) (off : Length) (b : Byte) : (s.storeMessage off b).h = s.h := rfl
@[simp] theorem storeMessage_v (s : State) (off : Length) (b : Byte) : (s.storeMessage off b).v = s.v := rfl
@[simp] theorem storeMessage_w (s : State) (off : Length) (b : Byte) : (s.storeMessage off b).w = s.w := rfl
@[simp] theorem storeMessage_blk (s : State) (off : Length) (b : Byte) : (s.storeMessage off b).blk = s.blk := rfl
@[simp] theorem storeMessage_len (s : State) (off : Length) (b : Byte) : (s.storeMessage off b).len = s.len := rfl
@[simp] theorem storeMessage_cur (s : State) (off : Length) (b : Byte) : (s.storeMessage off b).cur = s.cur := rfl
@[simp] theorem storeMessage_cns (s : State) (off : Length) (b : Byte) : (s.storeMessage off b).cns = s.cns := rfl
@[simp] theorem storeMessage_fin (s : State) (off : Length) (b : Byte) : (s.storeMessage off b).fin = s.fin := rfl
@[simp] theorem storeMessage_t (s : State) (off : Length) (b : Byte) : (s.storeMessage off b).t = s.t := rfl
@[simp] theorem storeMessage_alg (s : State) (off : Length) (b : Byte) : (s.storeMessage off b).alg = s.alg := rfl
@[simp] theorem storeMessage_st (s : State) (off : Length) (b : Byte) : (s.storeMessage off b).st = s.st := rfl
@[simp] theorem storeMessage_ph (s : State) (off : Length) (b : Byte) : (s.storeMessage off b).ph = s.ph := rfl
@[simp] theorem storeMessage_inReset (s : State) (off : Length) (b : Byte) : (s.storeMessage off b).inReset = s.inReset := rfl
@[simp] theorem storeMessage_msg (s : State) (off : Length) (b : Byte) : (s.storeMessage off b).msg = Memory.write s.msg off.toNat b := rfl
@[simp] theorem storeMessage_turns (s : State) (off : Length) (b : Byte) : (s.storeMessage off b).turns = s.turns := rfl
@[simp] theorem storeMessage_rdata (s : State) (off : Length) (b : Byte) : (s.storeMessage off b).rdata = s.rdata := rfl
@[simp] theorem storeMessage_draws (s : State) (off : Length) (b : Byte) : (s.storeMessage off b).draws = s.draws := rfl

/-! ### hostRead -/

@[simp] theorem hostRead_h (s : State) (reg : Nat) : (s.hostRead reg).h = s.h := rfl
@[simp] theorem hostRead_v (s : State) (reg : Nat) : (s.hostRead reg).v = s.v := rfl
@[simp] theorem hostRead_w (s : State) (reg : Nat) : (s.hostRead reg).w = s.w := rfl
@[simp] theorem hostRead_blk (s : State) (reg : Nat) : (s.hostRead reg).blk = s.blk := rfl
@[simp] theorem hostRead_len (s : State) (reg : Nat) : (s.hostRead reg).len = s.len := rfl
@[simp] theorem hostRead_cur (s : State) (reg : Nat) : (s.hostRead reg).cur = s.cur := rfl
@[simp] theorem hostRead_cns (s : State) (reg : Nat) : (s.hostRead reg).cns = s.cns := rfl
@[simp] theorem hostRead_fin (s : State) (reg : Nat) : (s.hostRead reg).fin = s.fin := rfl
@[simp] theorem hostRead_t (s : State) (reg : Nat) : (s.hostRead reg).t = s.t := rfl
@[simp] theorem hostRead_alg (s : State) (reg : Nat) : (s.hostRead reg).alg = s.alg := rfl
@[simp] theorem hostRead_st (s : State) (reg : Nat) : (s.hostRead reg).st = s.st := rfl
@[simp] theorem hostRead_ph (s : State) (reg : Nat) : (s.hostRead reg).ph = s.ph := rfl
@[simp] theorem hostRead_inReset (s : State) (reg : Nat) : (s.hostRead reg).inReset = s.inReset := rfl
@[simp] theorem hostRead_msg (s : State) (reg : Nat) : (s.hostRead reg).msg = s.msg := rfl
@[simp] theorem hostRead_turns (s : State) (reg : Nat) : (s.hostRead reg).turns = s.turns := rfl
@[simp] theorem hostRead_rdata (s : State) (reg : Nat) : (s.hostRead reg).rdata = readCsr s reg := rfl
@[simp] theorem hostRead_msgChanged (s : State) (reg : Nat) : (s.hostRead reg).msgChanged = s.msgChanged := rfl
@[simp] theorem hostRead_draws (s : State) (reg : Nat) : (s.hostRead reg).draws = s.draws := rfl

/-! ### initDriver -/

@[simp] theorem initDriver_v (s : State) (iv : List Word) : (initDriver iv s).v = s.v := rfl
@[simp] theorem initDriver_w (s : State) (iv : List Word) : (initDriver iv s).w = s.w := rfl
@[simp] theorem initDriver_blk (s : State) (iv : List Word) : (initDriver iv s).blk = s.blk := rfl
@[simp] theorem initDriver_len (s : State) (iv : List Word) : (initDriver iv s).len = s.len := rfl
@[simp] theorem initDriver_cur (s : State) (iv : List Word) : (initDriver iv s).cur = 0 := rfl
@[simp] theorem initDriver_cns (s : State) (iv : List Word) : (initDriver iv s).cns = s.cns := rfl
@[simp] theorem initDriver_fin (s : State) (iv : List Word) : (initDriver iv s).fin = false := rfl
@[simp] theorem initDriver_t (s : State) (iv : List Word) : (initDriver iv s).t = s.t := rfl
@[simp] theorem initDriver_alg (s : State) (iv : List Word) : (initDriver iv s).alg = s.alg := rfl
@[simp] theorem initDriver_st (s : State) (iv : List Word) : (initDriver iv s).st = s.st := rfl
@[simp] theorem initDriver_ph (s : State) (iv : List Word) : (initDriver iv s).ph = .block := rfl
@[simp] theorem initDriver_inReset (s : State) (iv : List Word) : (initDriver iv s).inReset = s.inReset := rfl
@[simp] theorem initDriver_msg (s : State) (iv : List Word) : (initDriver iv s).msg = s.msg := rfl
@[simp] theorem initDriver_turns (s : State) (iv : List Word) : (initDriver iv s).turns = s.turns := rfl
@[simp] theorem initDriver_rdata (s : State) (iv : List Word) : (initDriver iv s).rdata = s.rdata := rfl
@[simp] theorem initDriver_msgChanged (s : State) (iv : List Word) : (initDriver iv s).msgChanged = s.msgChanged := rfl
@[simp] theorem initDriver_draws (s : State) (iv : List Word) : (initDriver iv s).draws = s.draws := rfl

/-! ### foldHash -/

@[simp] theorem foldHash_v (s : State) (n : Nat) : (foldHash n s).v = s.v := rfl
@[simp] theorem foldHash_w (s : State) (n : Nat) : (foldHash n s).w = s.w := rfl
@[simp] theorem foldHash_blk (s : State) (n : Nat) : (foldHash n s).blk = s.blk := rfl
@[simp] theorem foldHash_len (s : State) (n : Nat) : (foldHash n s).len = s.len := rfl
@[simp] theorem foldHash_cur (s : State) (n : Nat) : (foldHash n s).cur = s.cur := rfl
@[simp] theorem foldHash_cns (s : State) (n : Nat) : (foldHash n s).cns = s.cns := rfl
@[simp] theorem foldHash_fin (s : State) (n : Nat) : (foldHash n s).fin = s.fin := rfl
@[simp] theorem foldHash_t (s : State) (n : Nat) : (foldHash n s).t = s.t := rfl
@[simp] theorem foldHash_alg (s : State) (n : Nat) : (foldHash n s).alg = s.alg := rfl
@[simp] theorem foldHash_st (s : State) (n : Nat) : (foldHash n s).st = s.st := rfl
@[simp] theorem foldHash_ph (s : State) (n : Nat) : (foldHash n s).ph = .next := rfl
@[simp] theorem foldHash_inReset (s : State) (n : Nat) : (foldHash n s).inReset = s.inReset := rfl
@[simp] theorem foldHash_msg (s : State) (n : Nat) : (foldHash n s).msg = s.msg := rfl
@[simp] theorem foldHash_turns (s : State) (n : Nat) : (foldHash n s).turns = s.turns := rfl
@[simp] theorem foldHash_rdata (s : State) (n : Nat) : (foldHash n s).rdata = s.rdata := rfl
@[simp] theorem foldHash_msgChanged (s : State) (n : Nat) : (foldHash n s).msgChanged = s.msgChanged := rfl
@[simp] theorem foldHash_draws (s : State) (n : Nat) : (foldHash n s).draws = s.draws := rfl

/-! ### advanceCursor -/

@[simp] theorem advanceCursor_h (s : State) : (advanceCursor s).h = s.h := rfl
@[simp] theorem advanceCursor_v (s : State) : (advanceCursor s).v = s.v := rfl
@[simp] theorem advanceCursor_w (s : State) : (advanceCursor s).w = s.w := rfl
@[simp] theorem advanceCursor_blk (s : State) : (advanceCursor s).blk = s.blk := rfl
@[simp] theorem advanceCursor_len (s : State) : (advanceCursor s).len = s.len := rfl
@[simp] theorem advanceCursor_cur (s : State) : (advanceCursor s).cur = s.cur + s.cns.setWidth 61 := rfl
@[simp] theorem advanceCursor_cns (s : State) : (advanceCursor s).cns = s.cns := rfl
@[simp] theorem advanceCursor_fin (s : State) : (advanceCursor s).fin = s.fin := rfl
@[simp] theorem advanceCursor_t (s : State) : (advanceCursor s).t = s.t := rfl
@[simp] theorem advanceCursor_alg (s : State) : (advanceCursor s).alg = s.alg := rfl
@[simp] theorem advanceCursor_st (s : State) : (advanceCursor s).st = s.st := rfl
@[simp] theorem advanceCursor_ph (s : State) : (advanceCursor s).ph = s.ph := rfl
@[simp] theorem advanceCursor_inReset (s : State) : (advanceCursor s).inReset = s.inReset := rfl
@[simp] theorem advanceCursor_msg (s : State) : (advanceCursor s).msg = s.msg := rfl
@[simp] theorem advanceCursor_turns (s : State) : (advanceCursor s).turns = s.turns := rfl
@[simp] theorem advanceCursor_rdata (s : State) : (advanceCursor s).rdata = s.rdata := rfl
@[simp] theorem advanceCursor_msgChanged (s : State) : (advanceCursor s).msgChanged = s.msgChanged := rfl
@[simp] theorem advanceCursor_draws (s : State) : (advanceCursor s).draws = s.draws := rfl

/-! ### putBlock -/

@[simp] theorem putBlock_h (s : State) (c : PadCase) (p : List Byte) : (putBlock c p s).h = s.h := by simp only [putBlock]
@[simp] theorem putBlock_v (s : State) (c : PadCase) (p : List Byte) : (putBlock c p s).v = s.v := by simp only [putBlock]
@[simp] theorem putBlock_w (s : State) (c : PadCase) (p : List Byte) : (putBlock c p s).w = s.w := by simp only [putBlock]
@[simp] theorem putBlock_blk (s : State) (c : PadCase) (p : List Byte) : (putBlock c p s).blk = toBlock (blockBytes c p (s.len.toNat - s.cur.toNat) s.len) := by simp only [putBlock]
@[simp] theorem putBlock_len (s : State) (c : PadCase) (p : List Byte) : (putBlock c p s).len = s.len := by simp only [putBlock]
@[simp] theorem putBlock_cur (s : State) (c : PadCase) (p : List Byte) : (putBlock c p s).cur = s.cur := by simp only [putBlock]
@[simp] theorem putBlock_cns (s : State) (c : PadCase) (p : List Byte) : (putBlock c p s).cns = consumed c (s.len.toNat - s.cur.toNat) := by simp only [putBlock]
@[simp] theorem putBlock_fin (s : State) (c : PadCase) (p : List Byte) : (putBlock c p s).fin = finFlag c := by simp only [putBlock]
@[simp] theorem putBlock_t (s : State) (c : PadCase) (p : List Byte) : (putBlock c p s).t = s.t := by simp only [putBlock]
@[simp] theorem putBlock_alg (s : State) (c : PadCase) (p : List Byte) : (putBlock c p s).alg = s.alg := by simp only [putBlock]
@[simp] theorem putBlock_st (s : State) (c : PadCase) (p : List Byte) : (putBlock c p s).st = s.st := by simp only [putBlock]
@[simp] theorem putBlock_ph (s : State) (c : PadCase) (p : List Byte) : (putBlock c p s).ph = .parse := by simp only [putBlock]
@[simp] theorem putBlock_inReset (s : State) (c : PadCase) (p : List Byte) : (putBlock c p s).inReset = s.inReset := by simp only [putBlock]
@[simp] theorem putBlock_msg (s : State) (c : PadCase) (p : List Byte) : (putBlock c p s).msg = s.msg := by simp only [putBlock]
@[simp] theorem putBlock_turns (s : State) (c : PadCase) (p : List Byte) : (putBlock c p s).turns = s.turns := by simp only [putBlock]
@[simp] theorem putBlock_rdata (s : State) (c : PadCase) (p : List Byte) : (putBlock c p s).rdata = s.rdata := by simp only [putBlock]
@[simp] theorem putBlock_msgChanged (s : State) (c : PadCase) (p : List Byte) : (putBlock c p s).msgChanged = s.msgChanged := by simp only [putBlock]
@[simp] theorem putBlock_draws (s : State) (c : PadCase) (p : List Byte) : (putBlock c p s).draws = s.draws := by simp only [putBlock]

/-! ### loadVars -/

@[simp] theorem loadVars_h (s : State) (n : Nat) : (loadVars n s).h = s.h := rfl
@[simp] theorem loadVars_w (s : State) (n : Nat) : (loadVars n s).w = s.w := rfl
@[simp] theorem loadVars_blk (s : State) (n : Nat) : (loadVars n s).blk = s.blk := rfl
@[simp] theorem loadVars_len (s : State) (n : Nat) : (loadVars n s).len = s.len := rfl
@[simp] theorem loadVars_cur (s : State) (n : Nat) : (loadVars n s).cur = s.cur := rfl
@[simp] theorem loadVars_cns (s : State) (n : Nat) : (loadVars n s).cns = s.cns := rfl
@[simp] theorem loadVars_fin (s : State) (n : Nat) : (loadVars n s).fin = s.fin := rfl
@[simp] theorem loadVars_t (s : State) (n : Nat) : (loadVars n s).t = 0 := rfl
@[simp] theorem loadVars_alg (s : State) (n : Nat) : (loadVars n s).alg = s.alg := rfl
@[simp] theorem loadVars_st (s : State) (n : Nat) : (loadVars n s).st = s.st := rfl
@[simp] theorem loadVars_ph (s : State) (n : Nat) : (loadVars n s).ph = .round := rfl
@[simp] theorem loadVars_inReset (s : State) (n : Nat) : (loadVars n s).inReset = s.inReset := rfl
@[simp] theorem loadVars_msg (s : State) (n : Nat) : (loadVars n s).msg = s.msg := rfl
@[simp] theorem loadVars_turns (s : State) (n : Nat) : (loadVars n s).turns = s.turns := rfl
@[simp] theorem loadVars_rdata (s : State) (n : Nat) : (loadVars n s).rdata = s.rdata := rfl
@[simp] theorem loadVars_msgChanged (s : State) (n : Nat) : (loadVars n s).msgChanged = s.msgChanged := rfl
@[simp] theorem loadVars_draws (s : State) (n : Nat) : (loadVars n s).draws = s.draws := rfl

/-! ### consumeTurn -/

@[simp] theorem consumeTurn_h (s : State) : (s.consumeTurn).h = s.h := by unfold State.consumeTurn; split <;> rfl
@[simp] theorem consumeTurn_v (s : State) : (s.consumeTurn).v = s.v := by unfold State.consumeTurn; split <;> rfl
@[simp] theorem consumeTurn_w (s : State) : (s.consumeTurn).w = s.w := by unfold State.consumeTurn; split <;> rfl
@[simp] theorem consumeTurn_blk (s : State) : (s.consumeTurn).blk = s.blk := by unfold State.consumeTurn; split <;> rfl
@[simp] theorem consumeTurn_len (s : State) : (s.consumeTurn).len = s.len := by unfold State.consumeTurn; split <;> rfl
@[simp] theorem consumeTurn_cur (s : State) : (s.consumeTurn).cur = s.cur := by unfold State.consumeTurn; split <;> rfl
@[simp] theorem consumeTurn_cns (s : State) : (s.consumeTurn).cns = s.cns := by unfold State.consumeTurn; split <;> rfl
@[simp] theorem consumeTurn_fin (s : State) : (s.consumeTurn).fin = s.fin := by unfold State.consumeTurn; split <;> rfl
@[simp] theorem consumeTurn_t (s : State) : (s.consumeTurn).t = s.t := by unfold State.consumeTurn; split <;> rfl
@[simp] theorem consumeTurn_alg (s : State) : (s.consumeTurn).alg = s.alg := by unfold State.consumeTurn; split <;> rfl
@[simp] theorem consumeTurn_st (s : State) : (s.consumeTurn).st = s.st := by unfold State.consumeTurn; split <;> rfl
@[simp] theorem consumeTurn_ph (s : State) : (s.consumeTurn).ph = s.ph := by unfold State.consumeTurn; split <;> rfl
@[simp] theorem consumeTurn_inReset (s : State) : (s.consumeTurn).inReset = s.inReset := by unfold State.consumeTurn; split <;> rfl
@[simp] theorem consumeTurn_msg (s : State) : (s.consumeTurn).msg = s.msg := by unfold State.consumeTurn; split <;> rfl
@[simp] theorem consumeTurn_rdata (s : State) : (s.consumeTurn).rdata = s.rdata := by unfold State.consumeTurn; split <;> rfl
@[simp] theorem consumeTurn_msgChanged (s : State) : (s.consumeTurn).msgChanged = s.msgChanged := by unfold State.consumeTurn; split <;> rfl
@[simp] theorem consumeTurn_draws (s : State) : (s.consumeTurn).draws = s.draws := by unfold State.consumeTurn; split <;> rfl

/-! ### writeCsr -/

@[simp] theorem writeCsr_h (s : State) (reg : Nat) (x : Word) : (writeCsr s reg x).h = s.h := by unfold writeCsr; split_ifs <;> rfl
@[simp] theorem writeCsr_v (s : State) (reg : Nat) (x : Word) : (writeCsr s reg x).v = s.v := by unfold writeCsr; split_ifs <;> rfl
@[simp] theorem writeCsr_w (s : State) (reg : Nat) (x : Word) : (writeCsr s reg x).w = s.w := by unfold writeCsr; split_ifs <;> rfl
@[simp] theorem writeCsr_blk (s : State) (reg : Nat) (x : Word) : (writeCsr s reg x).blk = s.blk := by unfold writeCsr; split_ifs <;> rfl
@[simp] theorem writeCsr_cur (s : State) (reg : Nat) (x : Word) : (writeCsr s reg x).cur = s.cur := by unfold writeCsr; split_ifs <;> rfl
@[simp] theorem writeCsr_cns (s : State) (reg : Nat) (x : Word) : (writeCsr s reg x).cns = s.cns := by unfold writeCsr; split_ifs <;> rfl
@[simp] theorem writeCsr_fin (s : State) (reg : Nat) (x : Word) : (writeCsr s reg x).fin = s.fin := by unfold writeCsr; split_ifs <;> rfl
@[simp] theorem writeCsr_t (s : State) (reg : Nat) (x : Word) : (writeCsr s reg x).t = s.t := by unfold writeCsr; split_ifs <;> rfl
@[simp] theorem writeCsr_alg (s : State) (reg : Nat) (x : Word) : (writeCsr s reg x).alg = s.alg := by unfold writeCsr; split_ifs <;> rfl
@[simp] theorem writeCsr_st (s : State) (reg : Nat) (x : Word) : (writeCsr s reg x).st = s.st := by unfold writeCsr; split_ifs <;> rfl
@[simp] theorem writeCsr_ph (s : State) (reg : Nat) (x : Word) : (writeCsr s reg x).ph = s.ph := by unfold writeCsr; split_ifs <;> rfl
@[simp] theorem writeCsr_inReset (s : State) (reg : Nat) (x : Word) : (writeCsr s reg x).inReset = s.inReset := by unfold writeCsr; split_ifs <;> rfl
@[simp] theorem writeCsr_msg (s : State) (reg : Nat) (x : Word) : (writeCsr s reg x).msg = s.msg := by unfold writeCsr; split_ifs <;> rfl
@[simp] theorem writeCsr_turns (s : State) (reg : Nat) (x : Word) : (writeCsr s reg x).turns = s.turns := by unfold writeCsr; split_ifs <;> rfl
@[simp] theorem writeCsr_rdata (s : State) (reg : Nat) (x : Word) : (writeCsr s reg x).rdata = s.rdata := by unfold writeCsr; split_ifs <;> rfl
@[simp] theorem writeCsr_msgChanged (s : State) (reg : Nat) (x : Word) : (writeCsr s reg x).msgChanged = s.msgChanged := by unfold writeCsr; split_ifs <;> rfl
@[simp] theorem writeCsr_draws (s : State) (reg : Nat) (x : Word) : (writeCsr s reg x).draws = s.draws := by unfold writeCsr; split_ifs <;> rfl

/-! ### putVars -/

@[simp] theorem putVars_h (s : State) (v : Vector Word 8) : (s.putVars v).h = s.h := rfl
@[simp] theorem putVars_v (s : State) (v : Vector Word 8) : (s.putVars v).v = v := rfl
@[simp] theorem putVars_w (s : State) (v : Vector Word 8) : (s.putVars v).w = s.w := rfl
@[simp] theorem putVars_blk (s : State) (v : Vector Word 8) : (s.putVars v).blk = s.blk := rfl
@[simp] theorem putVars_len (s : State) (v : Vector Word 8) : (s.putVars v).len = s.len := rfl
@[simp] theorem putVars_cur (s : State) (v : Vector Word 8) : (s.putVars v).cur = s.cur := rfl
@[simp] theorem putVars_cns (s : State) (v : Vector Word 8) : (s.putVars v).cns = s.cns := rfl
@[simp] theorem putVars_fin (s : State) (v : Vector Word 8) : (s.putVars v).fin = s.fin := rfl
@[simp] theorem putVars_t (s : State) (v : Vector Word 8) : (s.putVars v).t = s.t := rfl
@[simp] theorem putVars_alg (s : State) (v : Vector Word 8) : (s.putVars v).alg = s.alg := rfl
@[simp] theorem putVars_st (s : State) (v : Vector Word 8) : (s.putVars v).st = s.st := rfl
@[simp] theorem putVars_ph (s : State) (v : Vector Word 8) : (s.putVars v).ph = s.ph := rfl
@[simp] theorem putVars_inReset (s : State) (v : Vector Word 8) : (s.putVars v).inReset = s.inReset := rfl
@[simp] theorem putVars_msg (s : State) (v : Vector Word 8) : (s.putVars v).msg = s.msg := rfl
@[simp] theorem putVars_turns (s : State) (v : Vector Word 8) : (s.putVars v).turns = s.turns := rfl
@[simp] theorem putVars_rdata (s : State) (v : Vector Word 8) : (s.putVars v).rdata = s.rdata := rfl
@[simp] theorem putVars_msgChanged (s : State) (v : Vector Word 8) : (s.putVars v).msgChanged = s.msgChanged := rfl
@[simp] theorem putVars_draws (s : State) (v : Vector Word 8) : (s.putVars v).draws = s.draws := rfl

/-! ### parseBlock -/

@[simp] theorem parseBlock_h (s : State) : (parseBlock s).h = s.h := by simp only [parseBlock]
@[simp] theorem parseBlock_v (s : State) : (parseBlock s).v = s.v := by simp only [parseBlock]
@[simp] theorem parseBlock_blk (s : State) : (parseBlock s).blk = s.blk := by simp only [parseBlock]
@[simp] theorem parseBlock_len (s : State) : (parseBlock s).len = s.len := by simp only [parseBlock]
@[simp] theorem parseBlock_cur (s : State) : (parseBlock s).cur = s.cur := by simp only [parseBlock]
@[simp] theorem parseBlock_cns (s : State) : (parseBlock s).cns = s.cns := by simp only [parseBlock]
@[simp] theorem parseBlock_fin (s : State) : (parseBlock s).fin = s.fin := by simp only [parseBlock]
@[simp] theorem parseBlock_t (s : State) : (parseBlock s).t = 16 := by simp only [parseBlock]
@[simp] theorem parseBlock_alg (s : State) : (parseBlock s).alg = s.alg := by simp only [parseBlock]
@[simp] theorem parseBlock_st (s : State) : (parseBlock s).st = s.st := by simp only [parseBlock]
@[simp] theorem parseBlock_ph (s : State) : (parseBlock s).ph = .expand := by simp only [parseBlock]
@[simp] theorem parseBlock_inReset (s : State) : (parseBlock s).inReset = s.inReset := by simp only [parseBlock]
@[simp] theorem parseBlock_msg (s : State) : (parseBlock s).msg = s.msg := by simp only [parseBlock]
@[simp] theorem parseBlock_turns (s : State) : (parseBlock s).turns = s.turns := by simp only [parseBlock]
@[simp] theorem parseBlock_rdata (s : State) : (parseBlock s).rdata = s.rdata := by simp only [parseBlock]
@[simp] theorem parseBlock_msgChanged (s : State) : (parseBlock s).msgChanged = s.msgChanged := by simp only [parseBlock]
@[simp] theorem parseBlock_draws (s : State) : (parseBlock s).draws = s.draws := by simp only [parseBlock]

end Sys2Proof.Machine
end

