-- ==== Sys2Proof/Laws/Step.lean ====
section
/-! SUPPORT. What a step can be: the sequencer's micro-operation, a command, an ignored command word, or a turn that
runs no operation. Later proofs cite these and do not unfold `step`. -/

namespace Sys2Proof.Machine

/-- The decoder reads the micro-operation of R96 from the select code of `ALG` and `PH`. -/
@[simp] theorem decodeSelect_selectCode (a : Alg) (p : Phase) : decodeSelect (selectCode a p) = microOp a p := by
  cases a <;> cases p <;> rfl

@[simp] theorem decode_select (a : Alg) (p : Phase) : decode (.select (selectCode a p)) = .ok (microOp a p) := by
  simp [decode]

@[simp] theorem decode_sha1 : decode (.command 0x00000001) = .ok .hashSha1 := rfl

@[simp] theorem decode_sha256 : decode (.command 0x00000003) = .ok .hashSha256 := rfl

/-- A command word that is neither command is rejected. -/
theorem decode_other (w : Word) (h1 : w ≠ 0x00000001) (h3 : w ≠ 0x00000003) :
    ∃ e, decode (.command w) = .error e := by
  simp only [decode, decodeCommand, h1, h3, if_false]
  split
  · exact ⟨_, rfl⟩
  · exact ⟨_, rfl⟩

/-- The sequencer's turn while PROCESSING fetches the code of `ALG` and `PH`. -/
theorem fetch_sequencer {s : State} (h : s.sequencerTurn) (hp : s.st = .processing) :
    fetch s = some (.select (selectCode s.alg s.ph)) := by
  obtain ⟨hr, h | ⟨r, h⟩ | ⟨r, h⟩⟩ := h <;> simp [fetch, sequencerCode, hr, h, hp]

/-- The sequencer's turn in IDLE and DONE fetches nothing. -/
theorem fetch_idle {s : State} (h : s.sequencerTurn) (hp : s.st ≠ .processing) : fetch s = none := by
  obtain ⟨hr, h | ⟨r, h⟩ | ⟨r, h⟩⟩ := h <;> simp [fetch, sequencerCode, hr, h, hp]

/-- A sequencer step is the micro-operation of R96. -/
theorem step_sequencer {s : State} (h : s.sequencerTurn) (hp : s.st = .processing) :
    step s = exec (microOp s.alg s.ph) s.consumeTurn := by
  simp [step, fetch_sequencer h hp]

/-- A host write of a command word runs the command. -/
theorem step_command {s : State} {w : Word} {rest : List Turn} {i : Instr} (hr : s.inReset = false)
    (h : s.turns = .write 0 w :: rest) (hd : decode (.command w) = .ok i) : step s = exec i s.popTurn := by
  simp [step, fetch, hr, h, hd, State.consumeTurn]

/-- A host write of any other word to `CTRL` uses up the turn. -/
theorem step_ignored {s : State} {w : Word} {rest : List Turn} {e : Reject} (hr : s.inReset = false)
    (h : s.turns = .write 0 w :: rest) (hd : decode (.command w) = .error e) : step s = .next s.popTurn := by
  simp [step, fetch, hr, h, hd, State.consumeTurn]

/-- Every step is one of: a micro-operation on the sequencer's turn, an accepted or ignored command, an ignored word, a
turn that runs no operation. -/
theorem step_cases (s : State) :
    (s.sequencerTurn ∧ s.st = .processing ∧ step s = exec (microOp s.alg s.ph) s.consumeTurn) ∨
    (∃ a, s.acceptsCommand a ∧ step s = .next (s.popTurn.accept a)) ∨
    (s.inReset = false ∧ (∃ w rest, s.turns = .write 0 w :: rest) ∧ (∀ a, ¬ s.acceptsCommand a) ∧
      step s = .next s.popTurn) ∨
    (fetch s = none ∧ (∀ a, ¬ s.acceptsCommand a) ∧ ¬ (s.sequencerTurn ∧ s.st = .processing) ∧
      step s = .next (hostTurn s)) := by
  by_cases hr : s.inReset = true
  · refine .inr (.inr (.inr ⟨by simp [fetch, hr], ?_, ?_, by simp [step, fetch, hr]⟩))
    · rintro a ⟨h, -⟩; simp [hr] at h
    · rintro ⟨⟨h, -⟩, -⟩; simp [hr] at h
  · replace hr : s.inReset = false := by simpa using hr
    by_cases hs : s.sequencerTurn
    · have hna : ∀ a, ¬ s.acceptsCommand a := by
        rintro a ⟨-, -, r, h⟩
        obtain ⟨-, h' | ⟨r', h'⟩ | ⟨r', h'⟩⟩ := hs <;> simp [h'] at h
      by_cases hp : s.st = .processing
      · exact .inl ⟨hs, hp, step_sequencer hs hp⟩
      · exact .inr (.inr (.inr ⟨fetch_idle hs hp, hna, fun h => hp h.2, by simp [step, fetch_idle hs hp]⟩))
    · match ht : s.turns with
      | [] => exact absurd ⟨hr, .inl ht⟩ hs
      | .seq :: r => exact absurd ⟨hr, .inr (.inl ⟨r, ht⟩)⟩ hs
      | .wait :: r => exact absurd ⟨hr, .inr (.inr ⟨r, ht⟩)⟩ hs
      | .write reg w :: r =>
        by_cases h0 : reg = 0
        · subst h0
          by_cases h1 : w = 0x00000001
          · subst h1
            have hst := step_command hr ht decode_sha1
            by_cases hp : s.st = .processing
            · refine .inr (.inr (.inl ⟨hr, ⟨_, _, rfl⟩, ?_, ?_⟩))
              · rintro a ⟨-, h, -⟩; exact h hp
              · rw [hst]; simp [exec, execHashSha1, hashCommand, hp]
            · refine .inr (.inl ⟨.sha1, ⟨hr, hp, r, ht⟩, ?_⟩)
              rw [hst]; simp [exec, execHashSha1, hashCommand, hp]
          · by_cases h3 : w = 0x00000003
            · subst h3
              have hst := step_command hr ht decode_sha256
              by_cases hp : s.st = .processing
              · refine .inr (.inr (.inl ⟨hr, ⟨_, _, rfl⟩, ?_, ?_⟩))
                · rintro a ⟨-, h, -⟩; exact h hp
                · rw [hst]; simp [exec, execHashSha256, hashCommand, hp]
              · refine .inr (.inl ⟨.sha256, ⟨hr, hp, r, ht⟩, ?_⟩)
                rw [hst]; simp [exec, execHashSha256, hashCommand, hp]
            · obtain ⟨e, he⟩ := decode_other w h1 h3
              refine .inr (.inr (.inl ⟨hr, ⟨_, _, rfl⟩, ?_, step_ignored hr ht he⟩))
              rintro a ⟨-, -, r', h⟩
              rw [ht] at h
              cases a <;> simp at h <;> simp_all
        · refine .inr (.inr (.inr ⟨by simp [fetch, hr, ht, h0], ?_, fun h => hs h.1, by simp [step, fetch, hr, ht, h0]⟩))
          rintro a ⟨-, -, r', h⟩
          simp [ht, h0] at h
      | .read reg :: r =>
        refine .inr (.inr (.inr ⟨by simp [fetch, hr, ht], ?_, fun h => hs h.1, by simp [step, fetch, hr, ht]⟩))
        rintro a ⟨-, -, r', h⟩; simp [ht] at h
      | .store off b :: r =>
        refine .inr (.inr (.inr ⟨by simp [fetch, hr, ht], ?_, fun h => hs h.1, by simp [step, fetch, hr, ht]⟩))
        rintro a ⟨-, -, r', h⟩; simp [ht] at h
      | .assertReset :: r =>
        refine .inr (.inr (.inr ⟨by simp [fetch, hr, ht], ?_, fun h => hs h.1, by simp [step, fetch, hr, ht]⟩))
        rintro a ⟨-, -, r', h⟩; simp [ht] at h
      | .releaseReset :: r =>
        refine .inr (.inr (.inr ⟨by simp [fetch, hr, ht], ?_, fun h => hs h.1, by simp [step, fetch, hr, ht]⟩))
        rintro a ⟨-, -, r', h⟩; simp [ht] at h

end Sys2Proof.Machine
end

