-- ==== Sys2Proof/Laws/Exec.lean ====
section
/-! SUPPORT. What each micro-operation can do when it answers a next state, once for each phase; what the cursor and the
digest words can become; running several steps. Later proofs cite these and unfold no meaning. -/

namespace Sys2Proof.Machine

/-! ### Micro-operations -/

/-- The initial-value table of each algorithm. -/
def initTable : Alg → List Word
  | .sha1 => iv1
  | .sha256 => iv256

theorem exec_init {a : Alg} {s s' : State} (h : exec (microOp a .init) s = .next s') :
    s' = initDriver (initTable a) s := by
  cases a <;> · simp only [microOp, exec, execDrvInitSha1, execDrvInitSha256] at h; cases h; rfl

theorem exec_block {a : Alg} {s s' : State} (h : exec (microOp a .block) s = .next s') :
    ∃ c, padCase s.len.toNat s.cur.toNat = some c ∧
      ((∃ p, readBytes s.msg s.cur.toNat (payloadLength c (s.len.toNat - s.cur.toNat)) = some p ∧
          s' = putBlock c p s) ∨
        (readBytes s.msg s.cur.toNat (payloadLength c (s.len.toNat - s.cur.toNat)) = none ∧ s' = s)) := by
  replace h : execBbNext s = .next s' := by cases a <;> exact h
  unfold execBbNext at h
  split at h
  · cases h
  · rename_i c hc
    split at h
    · rename_i hp
      cases h
      exact ⟨c, hc, .inr ⟨hp, rfl⟩⟩
    · rename_i p hp
      cases h
      exact ⟨c, hc, .inl ⟨p, hp, rfl⟩⟩

/-- With the bytes of its block readable, `BB.NEXT` builds it. -/
theorem exec_block_readable {a : Alg} {s s' : State} (hr : s.blockReadable)
    (h : exec (microOp a .block) s = .next s') :
    ∃ c p, padCase s.len.toNat s.cur.toNat = some c ∧
      readBytes s.msg s.cur.toNat (payloadLength c (s.len.toNat - s.cur.toNat)) = some p ∧ s' = putBlock c p s := by
  obtain ⟨c, hc, ⟨p, hp, hs⟩ | ⟨hn, -⟩⟩ := exec_block h
  · exact ⟨c, p, hc, hp, hs⟩
  · obtain ⟨bs, hbs⟩ := readBytes_isSome s.msg _ s.cur.toNat (hr c hc)
    rw [hn] at hbs; cases hbs

/-- A readable message makes every block readable. -/
theorem blockReadable_of_message {s : State} (h : s.messageReadable) : s.blockReadable :=
  fun c hc i hi => h _ (by have := payload_le hc; omega)

/-- `BB.NEXT` waits for a byte that the platform refuses. -/
theorem execBbNext_stuck {s : State} {c : PadCase} (hc : padCase s.len.toNat s.cur.toNat = some c)
    (hp : readBytes s.msg s.cur.toNat (payloadLength c (s.len.toNat - s.cur.toNat)) = none) :
    execBbNext s = .next s := by
  simp [execBbNext, hc, hp]

/-- `BB.NEXT` completes for a case and a readable payload. -/
theorem execBbNext_eq {s : State} {c : PadCase} {p : List Byte} (hc : padCase s.len.toNat s.cur.toNat = some c)
    (hp : readBytes s.msg s.cur.toNat (payloadLength c (s.len.toNat - s.cur.toNat)) = some p) :
    execBbNext s = .next (putBlock c p s) := by
  simp [execBbNext, hc, hp]

theorem exec_parse {a : Alg} {s s' : State} (h : exec (microOp a .parse) s = .next s') : s' = parseBlock s := by
  cases a <;> · simp only [microOp, exec, execMsParse] at h; cases h; rfl

/-- The schedule word that the expansion of `a` computes at index `T`. -/
def expandWord (a : Alg) (s : State) : Word :=
  match a with
  | .sha1 => expandWord1 s.w s.t.toNat
  | .sha256 => expandWord256 s.w s.t.toNat

/-- The working variables after the round of `a` at index `T`. -/
def roundVars (a : Alg) (s : State) : Vector Word 8 :=
  match a with
  | .sha1 => round1 s.t.toNat (schedWord s.w s.t.toNat) s.v
  | .sha256 => round256 s.t.toNat (schedWord s.w s.t.toNat) s.v

theorem exec_expand_eq {a : Alg} {s : State} (h16 : 16 ≤ s.t.toNat) (hl : s.t.toNat < Config.nw a) :
    exec (microOp a .expand) s =
      .next ((s.putWord s.t.toNat (expandWord a s)).nextIndex (Config.nw a - 1) .load) := by
  cases a <;> simp only [Config.nw] at hl <;>
    simp [microOp, exec, execMsExpSha1, execMsExpSha256, expandStep, h16, Config.nw, expandWord] <;> omega

theorem exec_expand {a : Alg} {s s' : State} (h : exec (microOp a .expand) s = .next s') :
    16 ≤ s.t.toNat ∧ s.t.toNat < Config.nw a ∧
      s' = (s.putWord s.t.toNat (expandWord a s)).nextIndex (Config.nw a - 1) .load := by
  cases a <;>
  · simp only [microOp, exec, execMsExpSha1, execMsExpSha256, expandStep] at h
    split at h
    · rename_i hr
      cases h
      exact ⟨hr.1, by simp only [Config.nw]; omega, rfl⟩
    · cases h

theorem exec_load {a : Alg} {s s' : State} (h : exec (microOp a .load) s = .next s') :
    s' = loadVars (Config.nh a) s := by
  cases a <;> · simp only [microOp, exec, execCpLoadSha1, execCpLoadSha256] at h; cases h; rfl

theorem exec_round_eq {a : Alg} {s : State} (hl : s.t.toNat < Config.nr a) :
    exec (microOp a .round) s = .next ((s.putVars (roundVars a s)).nextIndex (Config.nr a - 1) .fold) := by
  cases a <;> simp only [Config.nr] at hl <;>
    simp [microOp, exec, execCpRndSha1, execCpRndSha256, roundStep, Config.nr, roundVars] <;> omega

theorem exec_round {a : Alg} {s s' : State} (h : exec (microOp a .round) s = .next s') :
    s.t.toNat < Config.nr a ∧ s' = (s.putVars (roundVars a s)).nextIndex (Config.nr a - 1) .fold := by
  cases a <;>
  · simp only [microOp, exec, execCpRndSha1, execCpRndSha256, roundStep] at h
    split at h
    · cases h
      exact ⟨by simp only [Config.nr]; omega, rfl⟩
    · cases h

theorem exec_fold {a : Alg} {s s' : State} (h : exec (microOp a .fold) s = .next s') :
    s' = foldHash (Config.nh a) s := by
  cases a <;> · simp only [microOp, exec, execDrvFoldSha1, execDrvFoldSha256] at h; cases h; rfl

theorem exec_next {a : Alg} {s s' : State} (h : exec (microOp a .next) s = .next s') :
    s' = if s.fin then (advanceCursor s).finish else { advanceCursor s with ph := .block } := by
  cases a <;> · simp only [microOp, exec, execDrvNext] at h; cases h; rfl

/-! ### Cursor and digest -/

theorem advanceCursor_toNat (s : State) :
    (advanceCursor s).cur.toNat = (s.cur.toNat + s.cns.toNat) % 2 ^ 61 := by
  have : (s.cur + BitVec.setWidth 61 s.cns).toNat = (s.cur.toNat + s.cns.toNat) % 2 ^ 61 := by
    simp [BitVec.toNat_setWidth]
  exact this

theorem nextIndex_t_toNat (s : State) (last : Nat) (p : Phase) (h : s.t.toNat ≠ last) (h' : s.t.toNat < 127) :
    (s.nextIndex last p).t.toNat = s.t.toNat + 1 := by
  rw [nextIndex_t]; simp [h]; omega

/-- The words of `H` past the digest are not freed (log 6). -/
theorem freeDigest_upper (s : State) (ha : s.alg = .sha1) (i : Nat) (h5 : 5 ≤ i) (h8 : i < 8) :
    s.freeDigest.h[i] = s.h[i] := by
  simp [State.freeDigest, ha, Config.nh, show ¬ i < 5 by omega]

/-! ### Running several steps -/

@[simp] theorem runSteps_zero (s : State) : runSteps 0 s = .next s := rfl

theorem runSteps_succ {s s' : State} (h : step s = .next s') (k : Nat) : runSteps (k + 1) s = runSteps k s' := by
  simp [runSteps, h]

theorem runSteps_one {s s' : State} (h : step s = .next s') : runSteps 1 s = .next s' := by simp [runSteps, h]

/-- Steps compose. -/
theorem runSteps_add {s s' : State} (j k : Nat) (h : runSteps j s = .next s') :
    runSteps (j + k) s = runSteps k s' := by
  induction j generalizing s with
  | zero => simp only [runSteps_zero] at h; cases h; simp
  | succ j ih =>
    rw [show j + 1 + k = (j + k) + 1 by omega]
    simp only [runSteps] at h ⊢
    cases hs : step s with
    | next t => rw [hs] at h; exact ih h
    | fault r => rw [hs] at h; cases h
    | refused r => rw [hs] at h; cases h

theorem consumeTurn_of_free {s : State} (h : s.free) : s.consumeTurn = s := by
  obtain ⟨-, h⟩ := h
  obtain ⟨⟩ := s
  simp only at h
  subst h
  rfl

theorem sequencerTurn_of_free {s : State} (h : s.free) : s.sequencerTurn := ⟨h.1, .inl h.2⟩

/-- A free-running sequencer step is the micro-operation alone. -/
theorem step_of_free {s : State} (h : s.free) (hp : s.st = .processing) : step s = exec (microOp s.alg s.ph) s := by
  rw [step_sequencer (sequencerTurn_of_free h) hp, consumeTurn_of_free h]

end Sys2Proof.Machine
end

