-- ==== Sys2Proof/Laws/Host.lean ====
section
/-! SUPPORT. The host's turns as steps: a register read, a write of a register other than `CTRL`, and what a turn that
runs no operation leaves alone. -/

namespace Sys2Proof.Machine

theorem popTurn_eq {s : State} {x : Turn} {rest : List Turn} (h : s.turns = x :: rest) :
    s.popTurn = { s with turns := rest } := by
  simp [State.popTurn, h]

@[simp] theorem readCsr_popTurn (s : State) (reg : Nat) : readCsr s.popTurn reg = readCsr s reg := rfl

/-- A register read is one step and changes the read data alone. -/
theorem step_read {s : State} {reg : Nat} {rest : List Turn} (h : s.turns = .read reg :: rest) :
    step s = .next { s with turns := rest, rdata := readCsr s reg } := by
  have hf : fetch s = none := by simp [fetch, h]
  simp only [step, hf, hostTurn, h, State.hostRead, readCsr_popTurn]
  rw [popTurn_eq h]

/-- A write of a register other than `CTRL` is one step. -/
theorem step_write {s : State} {reg : Nat} {v : Word} {rest : List Turn} (h : s.turns = .write reg v :: rest)
    (h0 : reg ≠ 0) : step s = .next (writeCsr s.popTurn reg v) := by
  have hf : fetch s = none := by simp [fetch, h, h0]
  simp [step, hf, hostTurn, h]

theorem busy_eq (s : State) : s.busy = decide (s.st = .processing) := by simp only [State.busy]; cases s.st <;> rfl

theorem done_eq (s : State) : s.done = decide (s.st = .done) := by simp only [State.done]; cases s.st <;> rfl

/-- A bit of the `STATUS` word. -/
theorem statusWord_bit (s : State) (i : Nat) :
    (statusWord s).getLsbD i =
      if i = 0 then s.busy else if i = 1 then s.done else if i = 2 then decide (s.alg = .sha256) else false := by
  unfold statusWord
  rcases i with _ | _ | _ | i
  · cases s.alg <;> cases s.done <;> cases s.busy <;> rfl
  · cases s.alg <;> cases s.done <;> cases s.busy <;> rfl
  · cases s.alg <;> cases s.done <;> cases s.busy <;> rfl
  · have h8 : (0#29 ++ algBit s.alg ++ BitVec.ofBool s.done ++ BitVec.ofBool s.busy : Word).toNat < 2 ^ 3 := by
      cases s.alg <;> cases s.done <;> cases s.busy <;> decide
    have : (2 : Nat) ^ 3 ≤ 2 ^ (i + 1 + 1 + 1) := Nat.pow_le_pow_right (by omega) (by omega)
    rw [if_neg (by omega), if_neg (by omega), if_neg (by omega)]
    exact Nat.testBit_lt_two_pow (by omega)

theorem readCsr_status {s : State} (hr : s.inReset = false) : readCsr s 1 = statusWord s := by simp [readCsr, hr]

theorem readCsr_digest {s : State} (hr : s.inReset = false) (i : Fin 8) :
    readCsr s (4 + i.val) = if s.st = .done then s.h[i] else 0 := by
  have := i.isLt
  unfold readCsr
  rw [if_neg (by simp [hr]), if_neg (by omega), if_neg (by omega), if_neg (by omega), if_pos (by omega)]
  simp

/-- What a turn that runs no operation leaves alone, unless it asserts reset. -/
theorem hostTurn_frame (s : State) (h : ¬ s.assertsReset) :
    (hostTurn s).h = s.h ∧ (hostTurn s).v = s.v ∧ (hostTurn s).w = s.w ∧ (hostTurn s).blk = s.blk ∧
    (hostTurn s).cur = s.cur ∧ (hostTurn s).cns = s.cns ∧ (hostTurn s).fin = s.fin ∧ (hostTurn s).t = s.t ∧
    (hostTurn s).alg = s.alg ∧ (hostTurn s).st = s.st ∧ (hostTurn s).ph = s.ph := by
  unfold hostTurn
  split
  · simp
  · simp
  · split <;> simp
  · simp
  · simp
  · simp
  · exact absurd ⟨_, by assumption⟩ h
  · simp

end Sys2Proof.Machine
end

