-- ==== Sys2Proof/Laws/PerInstr.lean ====
section
/-! SUPPORT. Statements about every instruction as syntax, one lemma per constructor: family RoundTrip says that the
decoder reads an instruction back from the word the encoder writes. -/

namespace Sys2Proof.Laws.RoundTrip

/-- Decoding what is encoded gives the instruction back. -/
def Statement (i : Instr) : Prop := i.wf = true ∧ decode (encode i) = .ok i

theorem hashSha1 : Statement .hashSha1 := ⟨rfl, rfl⟩
theorem hashSha256 : Statement .hashSha256 := ⟨rfl, rfl⟩
theorem drvInitSha1 : Statement .drvInitSha1 := ⟨rfl, rfl⟩
theorem drvInitSha256 : Statement .drvInitSha256 := ⟨rfl, rfl⟩
theorem bbNext (alg : Alg) : Statement (.bbNext alg) := by cases alg <;> exact ⟨rfl, rfl⟩
theorem msParse (alg : Alg) : Statement (.msParse alg) := by cases alg <;> exact ⟨rfl, rfl⟩
theorem msExpSha1 : Statement .msExpSha1 := ⟨rfl, rfl⟩
theorem msExpSha256 : Statement .msExpSha256 := ⟨rfl, rfl⟩
theorem cpLoadSha1 : Statement .cpLoadSha1 := ⟨rfl, rfl⟩
theorem cpLoadSha256 : Statement .cpLoadSha256 := ⟨rfl, rfl⟩
theorem cpRndSha1 : Statement .cpRndSha1 := ⟨rfl, rfl⟩
theorem cpRndSha256 : Statement .cpRndSha256 := ⟨rfl, rfl⟩
theorem drvFoldSha1 : Statement .drvFoldSha1 := ⟨rfl, rfl⟩
theorem drvFoldSha256 : Statement .drvFoldSha256 := ⟨rfl, rfl⟩
theorem drvNext (alg : Alg) : Statement (.drvNext alg) := by cases alg <;> exact ⟨rfl, rfl⟩

end Sys2Proof.Laws.RoundTrip
end

