-- ==== Sys2Proof/Laws/Run.lean ====
section
/-! SUPPORT. Frames composed, and runs of several steps while the sequencer is free. -/

namespace Sys2Proof.Machine

/-! ### Frames -/

theorem Reg.same_refl (r : Reg) (s : State) : r.same s s := by cases r <;> rfl

theorem onlyWrites_refl (rs : List Reg) (s : State) : onlyWrites rs s s :=
  ⟨fun r _ => r.same_refl s, rfl, rfl, rfl, fun _ => rfl⟩

theorem onlyWrites_trans {rs : List Reg} {a b c : State} (h1 : onlyWrites rs a b) (h2 : onlyWrites rs b c) :
    onlyWrites rs a c := by
  obtain ⟨x1, x2, x3, x4, x5⟩ := h1
  obtain ⟨y1, y2, y3, y4, y5⟩ := h2
  refine ⟨fun r hr => ?_, y2.trans x2, y3.trans x3, y4.trans x4, fun o => (y5 o).trans (x5 o)⟩
  have hx := x1 r hr
  have hy := y1 r hr
  cases r <;> exact Eq.trans hy hx

/-- The registers each phase writes (R20). -/
def writtenIn : Phase → List Reg
  | .init => [.h, .cur, .fin, .ph]
  | .block => [.blk, .cns, .fin, .ph]
  | .parse => [.w, .t, .ph]
  | .expand => [.w, .t, .ph]
  | .load => [.v, .t, .ph]
  | .round => [.v, .t, .ph]
  | .fold => [.h, .ph]
  | .next => [.h, .cur, .st, .ph]

/-- A micro-operation writes only the registers of its phase, and leaves the model's mark of a changed message. -/
theorem exec_micro_frame {a : Alg} {p : Phase} {s s' : State} (h : exec (microOp a p) s = .next s') :
    onlyWrites (writtenIn p) s s' ∧ s'.msgChanged = s.msgChanged := by
  cases p
  · rw [exec_init h]
    exact ⟨⟨fun r hr => by cases r <;> simp [writtenIn, Reg.same] at hr ⊢, by simp⟩, by simp⟩
  · obtain ⟨c, -, ⟨p, -, rfl⟩ | ⟨-, rfl⟩⟩ := exec_block h
    · exact ⟨⟨fun r hr => by cases r <;> simp [writtenIn, Reg.same] at hr ⊢, by simp⟩, by simp⟩
    · exact ⟨onlyWrites_refl _ _, rfl⟩
  · rw [exec_parse h]
    exact ⟨⟨fun r hr => by cases r <;> simp [writtenIn, Reg.same] at hr ⊢, by simp⟩, by simp⟩
  · rw [(exec_expand h).2.2]
    exact ⟨⟨fun r hr => by cases r <;> simp [writtenIn, Reg.same] at hr ⊢, by simp⟩, by simp⟩
  · rw [exec_load h]
    exact ⟨⟨fun r hr => by cases r <;> simp [writtenIn, Reg.same] at hr ⊢, by simp⟩, by simp⟩
  · rw [(exec_round h).2]
    exact ⟨⟨fun r hr => by cases r <;> simp [writtenIn, Reg.same] at hr ⊢, by simp⟩, by simp⟩
  · rw [exec_fold h]
    exact ⟨⟨fun r hr => by cases r <;> simp [writtenIn, Reg.same] at hr ⊢, by simp⟩, by simp⟩
  · rw [exec_next h]
    split
    · exact ⟨⟨fun r hr => by cases r <;> simp [writtenIn, Reg.same] at hr ⊢, by simp⟩, by simp⟩
    · exact ⟨⟨fun r hr => by cases r <;> simp [writtenIn, Reg.same] at hr ⊢, by simp⟩, by simp⟩

/-- `ST` after a micro-operation. -/
theorem exec_micro_st {a : Alg} {p : Phase} {s s' : State} (h : exec (microOp a p) s = .next s') :
    s'.st = if p = .next ∧ s.fin = true then .done else s.st := by
  by_cases hp : p = .next
  · subst hp; rw [exec_next h]; split_ifs with h1 h2 h2 <;> simp_all
  · have hn : Reg.st ∉ writtenIn p := by cases p <;> simp [writtenIn] at hp ⊢
    rw [if_neg (fun h => hp h.1)]; exact (exec_micro_frame h).1.1 .st hn

/-! ### Free runs -/

theorem free_of_frame {rs : List Reg} {s s' : State} (h : s.free) (hw : onlyWrites rs s s') : s'.free :=
  ⟨hw.2.1.trans h.1, hw.2.2.1.trans h.2⟩

/-- With no step enabled a free machine stays as it is (R225, R263). -/
theorem step_of_free_idle {s : State} (hf : s.free) (hp : s.st ≠ .processing) : step s = .next s := by
  simp [step, fetch_idle (sequencerTurn_of_free hf) hp, hostTurn, hf.2]

theorem runSteps_of_free_idle {s : State} (hf : s.free) (hp : s.st ≠ .processing) (k : Nat) :
    runSteps k s = .next s := by
  induction k with
  | zero => rfl
  | succ k ih => rw [runSteps_succ (step_of_free_idle hf hp)]; exact ih

/-- A free machine stays free, and its message stays unchanged. -/
theorem step_free {s s' : State} (hf : s.free) (h : step s = .next s') :
    s'.free ∧ s'.msgChanged = s.msgChanged := by
  by_cases hp : s.st = .processing
  · rw [step_of_free hf hp] at h
    have := exec_micro_frame h
    exact ⟨free_of_frame hf this.1, this.2⟩
  · rw [step_of_free_idle hf hp] at h
    cases h; exact ⟨hf, rfl⟩

theorem runSteps_free {s t : State} (hf : s.free) (k : Nat) (h : runSteps k s = .next t) :
    t.free ∧ t.msgChanged = s.msgChanged := by
  induction k generalizing s with
  | zero => cases h; exact ⟨hf, rfl⟩
  | succ k ih =>
    simp only [runSteps] at h
    cases hs : step s with
    | next u =>
      rw [hs] at h
      have h1 := step_free hf hs
      have h2 := ih h1.1 h
      exact ⟨h2.1, h2.2.trans h1.2⟩
    | fault r => rw [hs] at h; cases h
    | refused r => rw [hs] at h; cases h

/-- A free run that ends in PROCESSING was PROCESSING all the way. -/
theorem processing_throughout {s t : State} (hf : s.free) (k : Nat) (h : runSteps k s = .next t)
    (ht : t.st = .processing) : ∀ j, j < k → ∃ s', runSteps j s = .next s' ∧ s'.st = .processing := by
  induction k generalizing s with
  | zero => intro j hj; omega
  | succ k ih =>
    by_cases hp : s.st = .processing
    · simp only [runSteps] at h
      cases hs : step s with
      | next u =>
        rw [hs] at h
        have := ih (step_free hf hs).1 h
        intro j hj
        cases j with
        | zero => exact ⟨s, rfl, hp⟩
        | succ j =>
          obtain ⟨v, hv, hv'⟩ := this j (by omega)
          exact ⟨v, by rw [runSteps_succ hs]; exact hv, hv'⟩
      | fault r => rw [hs] at h; cases h
      | refused r => rw [hs] at h; cases h
    · rw [runSteps_of_free_idle hf hp] at h
      cases h; exact absurd ht hp

end Sys2Proof.Machine
end

