-- ==== Sys2Proof/Laws/Turns.lean ====
section
/-! SUPPORT. The turns of host and platform beside a running operation: a micro-operation sees neither the turns nor the
read data nor memory past the message, a harmless turn while PROCESSING changes nothing else, and so an operation ends
with the registers of its free run. -/

namespace Sys2Proof.Machine

/-! ### What a micro-operation does not see -/

/-- `s` with another host's side: message memory, pending turns and read data. -/
def State.withHostSide (s : State) (m : Memory) (ts : List Turn) (d : Word) : State :=
  { s with msg := m, turns := ts, rdata := d }

@[simp] theorem nextIndex_withHostSide (s : State) (m : Memory) (ts : List Turn) (d : Word) (last : Nat) (p : Phase) :
    (s.withHostSide m ts d).nextIndex last p = (s.nextIndex last p).withHostSide m ts d := by
  unfold State.nextIndex
  by_cases h : s.t.toNat = last <;> simp [State.withHostSide, h]

@[simp] theorem finish_withHostSide (s : State) (m : Memory) (ts : List Turn) (d : Word) :
    (s.withHostSide m ts d).finish = s.finish.withHostSide m ts d := by
  unfold State.finish
  by_cases h : s.msgChanged = true <;> simp [State.withHostSide, h]
  rfl

/-- `f` is `s` but for the host's side: the pending turns, the read data, and memory past the message. -/
def State.Alike (s f : State) : Prop :=
  f = s.withHostSide f.msg f.turns f.rdata ∧
    ∀ off, off < s.len.toNat → Memory.read f.msg off = Memory.read s.msg off

theorem State.Alike.refl (s : State) : s.Alike s := ⟨rfl, fun _ _ => rfl⟩

/-- The registers of two alike states are the same. -/
theorem State.Alike.same {s f : State} (h : s.Alike f) (r : Reg) : r.same s f := by
  rw [h.1]; cases r <;> rfl

theorem State.Alike.trans {s t f : State} (h1 : s.Alike t) (h2 : t.Alike f) : s.Alike f := by
  have hl : t.len = s.len := h1.same .len
  refine ⟨h2.1.trans ?_, fun off ho => (h2.2 off (by rw [hl]; exact ho)).trans (h1.2 off ho)⟩
  rw [h1.1]; rfl

theorem State.Alike.symm {s f : State} (h : s.Alike f) : f.Alike s := by
  have hl : f.len = s.len := h.same .len
  refine ⟨?_, fun off ho => (h.2 off (by rw [← hl]; exact ho)).symm⟩
  rw [h.1]; rfl

theorem State.Alike.inReset {s f : State} (h : s.Alike f) : f.inReset = s.inReset := by rw [h.1]; rfl

theorem State.Alike.msgChanged {s f : State} (h : s.Alike f) : f.msgChanged = s.msgChanged := by rw [h.1]; rfl

/-- A micro-operation neither sees nor changes the turns and the read data, and sees no byte past the message. -/
theorem exec_micro_hostSide {a : Alg} {p : Phase} {s s' : State} {m : Memory} (ts : List Turn) (d : Word)
    (hm : ∀ off, off < s.len.toNat → Memory.read m off = Memory.read s.msg off)
    (h : exec (microOp a p) s = .next s') :
    exec (microOp a p) (s.withHostSide m ts d) = .next (s'.withHostSide m ts d) := by
  cases p
  · rw [exec_init h]; cases a <;> rfl
  · obtain ⟨c, hc, hs⟩ := exec_block h
    have hr : readBytes m s.cur.toNat (payloadLength c (s.len.toNat - s.cur.toNat)) =
        readBytes s.msg s.cur.toNat (payloadLength c (s.len.toNat - s.cur.toNat)) :=
      readBytes_congr fun i hi => hm _ (by have := payload_le hc; omega)
    have he : ∀ u, exec (microOp a .block) u = execBbNext u := fun u => by cases a <;> rfl
    rw [he]
    obtain ⟨q, hq, rfl⟩ | ⟨hn, rfl⟩ := hs
    · exact execBbNext_eq hc (hr.trans hq)
    · exact execBbNext_stuck hc (hr.trans hn)
  · rw [exec_parse h]; cases a <;> rfl
  · obtain ⟨h16, hl, rfl⟩ := exec_expand h
    rw [exec_expand_eq (s := s.withHostSide m ts d) h16 hl, ← nextIndex_withHostSide]
    cases a <;> rfl
  · rw [exec_load h]; cases a <;> rfl
  · obtain ⟨hl, rfl⟩ := exec_round h
    rw [exec_round_eq (s := s.withHostSide m ts d) hl, ← nextIndex_withHostSide]
    cases a <;> rfl
  · rw [exec_fold h]; cases a <;> rfl
  · rw [exec_next h]
    have he : ∀ u, exec (microOp a .next) u = execDrvNext u := fun u => by cases a <;> rfl
    rw [he, execDrvNext]
    by_cases hf : s.fin = true
    · rw [if_pos (c := (s.withHostSide m ts d).fin = true) hf, if_pos hf, ← finish_withHostSide]; rfl
    · rw [if_neg (c := (s.withHostSide m ts d).fin = true) hf, if_neg hf]; rfl

/-- Alike states take alike micro-operations, and neither uses up a turn by it. -/
theorem exec_micro_alike {a : Alg} {p : Phase} {s f f' : State} (h : s.Alike f)
    (hf : exec (microOp a p) f = .next f') :
    ∃ s', exec (microOp a p) s = .next s' ∧ s'.Alike f' ∧ s'.turns = s.turns ∧ s'.rdata = s.rdata := by
  have hb := h.symm
  have he := exec_micro_hostSide s.turns s.rdata hb.2 hf
  rw [← hb.1] at he
  refine ⟨_, he, ?_, rfl, rfl⟩
  have hw := (exec_micro_frame hf).1
  have hl : f'.len = f.len := hw.1 .len (by cases p <;> simp [writtenIn])
  refine ⟨rfl, fun off ho => ?_⟩
  exact (hw.2.2.2.2 off).trans (hb.2 off (by rw [← hl]; exact ho)).symm

/-! ### Turns while PROCESSING -/

/-- A harmless turn while PROCESSING that gives the sequencer no step is used up and changes nothing the operation sees:
a read, a write of any register, a store past the message, a release of reset (R212, R38, R39, R222). -/
theorem step_harmless {s : State} {x : Turn} {rest : List Turn} (hr : s.inReset = false) (hp : s.st = .processing)
    (ht : s.turns = x :: rest) (hx : x.harmless s.len = true) (hn : ¬ s.sequencerTurn) :
    ∃ s', step s = .next s' ∧ s'.turns = rest ∧ s.Alike s' := by
  have pop : s.popTurn.turns = rest ∧ s.Alike s.popTurn := ⟨by simp [ht], rfl, fun _ _ => rfl⟩
  cases x with
  | seq => exact absurd ⟨hr, .inr (.inl ⟨_, ht⟩)⟩ hn
  | wait => exact absurd ⟨hr, .inr (.inr ⟨_, ht⟩)⟩ hn
  | assertReset => cases hx
  | releaseReset =>
    have hf : fetch s = none := by simp [fetch, ht]
    refine ⟨{ s.popTurn with inReset := false }, by simp [step, hf, hostTurn, ht], by simp [ht], ?_, fun _ _ => rfl⟩
    rw [← hr]; rfl
  | read reg => exact ⟨_, step_read ht, rfl, rfl, fun _ _ => rfl⟩
  | write reg v =>
    by_cases h0 : reg = 0
    · subst h0
      rcases step_cases s with ⟨h, -⟩ | ⟨a, ha, -⟩ | ⟨-, -, -, h⟩ | ⟨h, -⟩
      · exact absurd h hn
      · exact absurd hp ha.2.1
      · exact ⟨_, h, pop⟩
      · simp [fetch, hr, ht] at h
    · have hw : writeCsr s.popTurn reg v = s.popTurn := by simp [writeCsr, hp]
      exact ⟨_, by rw [step_write ht h0, hw], pop⟩
  | store off b =>
    have hf : fetch s = none := by simp [fetch, ht]
    have ho : s.len.toNat ≤ off.toNat := by simpa [Turn.harmless] using hx
    have hc : ¬ off < s.len := by simpa [BitVec.lt_def] using ho
    refine ⟨s.popTurn.storeMessage off b, by simp [step, hf, hostTurn, ht], by simp [State.storeMessage, ht], ?_, ?_⟩
    · simp [State.storeMessage, State.withHostSide, hc, State.popTurn]
    · intro o hlt
      exact read_write_other _ _ _ _ (by omega)

/-- An operation with harmless turns pending ends with the registers of its free run, is PROCESSING until then, and
takes the steps of the free run and at most one more for each turn. -/
theorem harmless_run (n : Nat) (ts : List Turn) : ∀ {s f g : State}, s.turns = ts → s.Alike f → f.free →
    (∀ x ∈ ts, x.harmless s.len = true) → runSteps n f = .next g → g.st = .done →
    (∀ j, j < n → ∃ u, runSteps j f = .next u ∧ u.st = .processing) →
    ∃ k s', n ≤ k ∧ k ≤ n + ts.length ∧ runSteps k s = .next s' ∧ s'.Alike g ∧
      ∀ j, j < k → ∃ u, runSteps j s = .next u ∧ u.st = .processing := by
  -- one induction on the steps of the free run and the pending turns together
  obtain ⟨N, hN⟩ : ∃ N, n + ts.length ≤ N := ⟨_, le_rfl⟩
  induction N generalizing n ts with
  | zero =>
    intro s f g ht ha _ _ hg _ _
    obtain rfl : n = 0 := by omega
    cases hg
    exact ⟨0, s, le_rfl, by omega, rfl, ha, fun j hj => absurd hj (by omega)⟩
  | succ N ih =>
    intro s f g ht ha hfree hx hg hd hproc
    cases n with
    | zero =>
      cases hg
      exact ⟨0, s, le_rfl, by omega, rfl, ha, fun j hj => absurd hj (by omega)⟩
    | succ n =>
      have hpf : f.st = .processing := by
        obtain ⟨u, hu, hu'⟩ := hproc 0 (by omega)
        cases hu; exact hu'
      have hps : s.st = .processing := (ha.same .st).symm.trans hpf
      have hrs : s.inReset = false := ha.inReset.symm.trans hfree.1
      -- one step more before a run
      have cons : ∀ {s1 : State} {k : Nat} {s' : State}, step s = .next s1 → runSteps k s1 = .next s' →
          (∀ j, j < k → ∃ u, runSteps j s1 = .next u ∧ u.st = .processing) →
          runSteps (k + 1) s = .next s' ∧ ∀ j, j < k + 1 → ∃ u, runSteps j s = .next u ∧ u.st = .processing := by
        intro s1 k s' h1 h2 h3
        refine ⟨(runSteps_succ h1 k).trans h2, fun j hj => ?_⟩
        cases j with
        | zero => exact ⟨s, rfl, hps⟩
        | succ j =>
          obtain ⟨u, hu, hu'⟩ := h3 j (by omega)
          exact ⟨u, (runSteps_succ h1 j).trans hu, hu'⟩
      by_cases hs : s.sequencerTurn
      · simp only [runSteps] at hg
        cases hf1 : step f with
        | fault r => rw [hf1] at hg; cases hg
        | refused r => rw [hf1] at hg; cases hg
        | next f1 =>
          rw [hf1] at hg
          have hm := hf1
          rw [step_of_free hfree hpf, ha.same .alg, ha.same .ph] at hm
          have hac : s.consumeTurn.Alike f := by
            refine State.Alike.trans (State.Alike.symm ?_) ha
            unfold State.consumeTurn
            split
            · exact .refl s
            · exact ⟨rfl, fun _ _ => rfl⟩
          obtain ⟨s1, e1, ha1, ht1, -⟩ := exec_micro_alike hac hm
          have hst : step s = .next s1 := (step_sequencer hs hps).trans e1
          have hl1 : s1.len = s.len := by
            have h1 := (exec_micro_frame e1).1.1 .len (by cases s.ph <;> simp [writtenIn])
            exact h1.trans (by simp)
          have hsub : s1.turns = ts ∨ ∃ x, ts = x :: s1.turns := by
            rw [ht1, ← ht]
            obtain ⟨-, h | ⟨r, h⟩ | ⟨r, h⟩⟩ := hs <;> simp [State.consumeTurn, h, State.popTurn]
          have hlen : s1.turns.length ≤ ts.length := by
            rcases hsub with h | ⟨x, h⟩
            · rw [h]
            · rw [h]; simp
          have hx1 : ∀ x ∈ s1.turns, x.harmless s1.len = true := by
            intro x hmem
            rw [hl1]
            rcases hsub with h | ⟨y, h⟩
            · exact hx x (h ▸ hmem)
            · exact hx x (h ▸ List.mem_cons_of_mem _ hmem)
          have hproc1 : ∀ j, j < n → ∃ u, runSteps j f1 = .next u ∧ u.st = .processing := by
            intro j hj
            obtain ⟨u, hu, hu'⟩ := hproc (j + 1) (by omega)
            exact ⟨u, (runSteps_succ hf1 j).symm.trans hu, hu'⟩
          obtain ⟨k, s', hk1, hk2, hk3, hk4, hk5⟩ :=
            ih n s1.turns (by omega) rfl ha1 (step_free hfree hf1).1 hx1 hg hd hproc1
          have := cons hst hk3 hk5
          exact ⟨k + 1, s', by omega, by omega, this.1, hk4, this.2⟩
      · match ts, ht with
        | [], ht => exact absurd ⟨hrs, .inl ht⟩ hs
        | x :: rest, ht =>
          obtain ⟨s1, e1, ht1, ha1⟩ := step_harmless hrs hps ht (hx x (by simp)) hs
          have hl1 : s1.len = s.len := ha1.same .len
          obtain ⟨k, s', hk1, hk2, hk3, hk4, hk5⟩ :=
            ih (n + 1) rest (by simp at hN; omega) ht1 (ha1.symm.trans ha) hfree
              (fun y hy => by rw [hl1]; exact hx y (by simp [hy])) hg hd hproc
          have := cons e1 hk3 hk5
          exact ⟨k + 1, s', by omega, by simp; omega, this.1, hk4, this.2⟩

/-! ### A host program's WAIT and reads -/

/-- The data of a longer run. -/
theorem readData_add {s s' : State} (j k : Nat) (h : runSteps j s = .next s') :
    readData (j + k) s = readData j s ++ readData k s' := by
  induction j generalizing s with
  | zero => simp only [runSteps_zero] at h; cases h; simp [readData]
  | succ j ih =>
    rw [show j + 1 + k = (j + k) + 1 by omega]
    simp only [runSteps] at h
    cases hs : step s with
    | next t => rw [hs] at h; simp [readData, hs, ih h]
    | fault r => rw [hs] at h; cases h
    | refused r => rw [hs] at h; cases h

theorem readData_one {s s' : State} (h : step s = .next s') :
    readData 1 s = if s.readsRegister then [s'.rdata] else [] := by simp [readData, h]

/-- While the host waits, the operation takes the steps of its free run and no register read returns. -/
theorem wait_run (n : Nat) (rest : List Turn) : ∀ {s f g : State}, s.turns = .wait :: rest → s.Alike f → f.free →
    runSteps n f = .next g → (∀ j, j < n → ∃ u, runSteps j f = .next u ∧ u.st = .processing) →
    ∃ s', runSteps n s = .next s' ∧ s'.Alike g ∧ s'.turns = .wait :: rest ∧ readData n s = [] := by
  induction n with
  | zero => intro s f g ht ha _ hg _; cases hg; exact ⟨s, rfl, ha, ht, rfl⟩
  | succ n ih =>
    intro s f g ht ha hfree hg hproc
    have hpf : f.st = .processing := by
      obtain ⟨u, hu, hu'⟩ := hproc 0 (by omega)
      cases hu; exact hu'
    have hps : s.st = .processing := (ha.same .st).symm.trans hpf
    have hs : s.sequencerTurn := ⟨ha.inReset.symm.trans hfree.1, .inr (.inr ⟨rest, ht⟩)⟩
    simp only [runSteps] at hg
    cases hf1 : step f with
    | fault r => rw [hf1] at hg; cases hg
    | refused r => rw [hf1] at hg; cases hg
    | next f1 =>
      rw [hf1] at hg
      have hm := hf1
      rw [step_of_free hfree hpf, ha.same .alg, ha.same .ph] at hm
      obtain ⟨s1, e1, ha1, ht1, -⟩ := exec_micro_alike ha hm
      have hst : step s = .next s1 := by
        rw [step_sequencer hs hps]; simpa [State.consumeTurn, ht] using e1
      obtain ⟨s', h1, h2, h3, h4⟩ := ih (ht1.trans ht) ha1 (step_free hfree hf1).1 hg fun j hj => by
        obtain ⟨u, hu, hu'⟩ := hproc (j + 1) (by omega)
        exact ⟨u, (runSteps_succ hf1 j).symm.trans hu, hu'⟩
      refine ⟨s', (runSteps_succ hst n).trans h1, h2, h3, ?_⟩
      rw [show n + 1 = 1 + n by omega, readData_add 1 n (runSteps_one hst), readData_one hst, h4]
      simp [State.readsRegister, ht]

/-- Stores of the host outside an operation: the bytes stand in memory from offset `k` on, and no register changes. -/
theorem store_run (m : List Byte) (rest : List Turn) : ∀ {s : State} (k : Nat), s.st ≠ .processing →
    k + m.length ≤ 2 ^ 61 →
    s.turns = m.mapIdx (fun i b => Turn.store (BitVec.ofNat 61 (k + i)) b) ++ rest →
    ∃ s', runSteps m.length s = .next s' ∧ readData m.length s = [] ∧
      s' = s.withHostSide s'.msg rest s.rdata ∧ (∀ i, i < m.length → Memory.read s'.msg (k + i) = m[i]?) ∧
      ∀ o, o < k → Memory.read s'.msg o = Memory.read s.msg o := by
  induction m with
  | nil =>
    intro s k _ _ ht
    refine ⟨s, rfl, rfl, ?_, fun i hi => absurd hi (by simp), fun _ _ => rfl⟩
    simp at ht
    rw [← ht]; rfl
  | cons b m ih =>
    intro s k hst hk ht
    simp only [List.length_cons] at hk
    simp only [List.mapIdx_cons, List.cons_append, Nat.add_zero] at ht
    have hf : fetch s = none := by simp [fetch, ht]
    have h1 : step s = .next (s.popTurn.storeMessage (BitVec.ofNat 61 k) b) := by simp [step, hf, hostTurn, ht]
    have hb : s.popTurn.busy = false := by simp [busy_eq, hst]
    have hkk : (BitVec.ofNat 61 k).toNat = k := by simp; omega
    have hs1 : s.popTurn.storeMessage (BitVec.ofNat 61 k) b =
        s.withHostSide (Memory.write s.msg k b) s.turns.tail s.rdata := by
      simp only [State.storeMessage, hb, hkk]; simp [State.withHostSide, State.popTurn]
    obtain ⟨s', e1, e2, e3, e4, e5⟩ := ih (s := s.popTurn.storeMessage (BitVec.ofNat 61 k) b) (k + 1) (by simpa using hst)
      (by omega) (by
        rw [hs1]; simp only [State.withHostSide, ht, List.tail_cons]
        congr 2
        funext i c
        rw [show k + (i + 1) = k + 1 + i by omega])
    have hmem : ∀ o, o < k + 1 → Memory.read s'.msg o = if o = k then some b else Memory.read s.msg o := by
      intro o ho
      rw [e5 o ho, hs1]
      simp only [State.withHostSide]
      split
      · subst o; exact read_write_same _ _ _
      · exact read_write_other _ _ _ _ (by assumption)
    refine ⟨s', by rw [List.length_cons, runSteps_succ h1, e1], ?_, ?_, ?_, ?_⟩
    · rw [List.length_cons, show m.length + 1 = 1 + m.length by omega, readData_add 1 _ (runSteps_one h1),
        readData_one h1, e2]
      simp [State.readsRegister, ht]
    · rw [hs1] at e3; exact e3
    · intro i hi
      cases i with
      | zero => rw [Nat.add_zero, hmem k (by omega)]; simp
      | succ i =>
        have := e4 i (by simpa using hi)
        rw [show k + (i + 1) = k + 1 + i by omega, this]; simp
    · intro o ho
      rw [hmem o (by omega), if_neg (by omega)]

end Sys2Proof.Machine
end

