-- ==== Sys2Proof/Tests/Slice0.lean ====
section
/-! SUPPORT. The model's own tests: ill-formed words, words written out from the spec's encodings, one small step or two
for each instruction with the spec's own values (95_test_vectors.md and the examples of the rules), and for every
obligation with hypotheses a state that meets them all, clause by clause, at boundary values. -/

namespace Sys2Proof.Machine

/-! ### Small states -/

/-- A state after reset with a Driver state and pending turns. -/
def hostState (st : DriverState) (ts : List Turn) : State := { State.reset with st := st, turns := ts }

/-- A free-running state at the start of a phase. -/
def seqState (a : Alg) (p : Phase) : State := { State.reset with st := .processing, alg := a, ph := p }

/-- The same state with `T`. -/
def State.atIndex (s : State) (t : Nat) : State := { s with t := BitVec.ofNat 7 t }

/-- `n` bytes of value 61, as in 95_test_vectors.md section 3. -/
def aBytes (n : Nat) : Memory := (List.range n).map fun i => (i, 0x61)

/-- The same state with a message of `n` bytes of value 61, `LEN = n` and `CUR = c`. -/
def State.withMessage (s : State) (n c : Nat) : State :=
  { s with len := BitVec.ofNat 61 n, cur := BitVec.ofNat 61 c, msg := aBytes n }

/-- The same state with the message "abc" (95_test_vectors.md section 4). -/
def State.withAbc (s : State) : State := { s with len := 3, msg := [(0, 0x61), (1, 0x62), (2, 0x63)] }

/-- A schedule whose first words are given, the rest zero. -/
def wordsOf (ws : List Word) : Vector Word 80 := Vector.ofFn fun i => ws.getD i.val 0

/-- One value of the next state. -/
def after {α : Type} (o : Host.Outcome State Fault Refusal) (f : State → α) : Option α := (nextOf o).map f

/-! ### Ill-formed words are refused, every instruction is well-formed -/

theorem test_select_needs_four_bits : isSelectWord 8 16 = false := by decide
theorem test_select_fits_one_byte : isSelectWord 16 1 = false := by decide
theorem test_command_fits_32_bits : isCommandWord 32 (2 ^ 32) = false := by decide
theorem test_command_is_one_word : isCommandWord 40 1 = false := by decide
theorem test_command_is_longer_than_a_byte : isCommandWord 8 1 = false := by decide
theorem test_illformed_words_decode_to_nothing :
    decodeTableWord 8 16 = none ∧ decodeTableWord 32 (2 ^ 32) = none ∧ decodeTableWord 40 1 = none := by decide
theorem test_share_bit_is_wellformed : (Instr.bbNext .sha1).wf ∧ (Instr.bbNext .sha256).wf := by decide

/-! ### Words from the encodings of the spec (R92 to R96) -/

theorem test_decode_commands :
    decode (.command 0b00000000000000000000000000000001) = .ok .hashSha1 ∧
    decode (.command 0b00000000000000000000000000000011) = .ok .hashSha256 := by decide
theorem test_decode_driver :
    decode (.select 0b0000) = .ok .drvInitSha1 ∧ decode (.select 0b1000) = .ok .drvInitSha256 ∧
    decode (.select 0b0110) = .ok .drvFoldSha1 ∧ decode (.select 0b1110) = .ok .drvFoldSha256 ∧
    decode (.select 0b0111) = .ok (.drvNext .sha1) ∧ decode (.select 0b1111) = .ok (.drvNext .sha256) := by decide
theorem test_decode_block_builder :
    decode (.select 0b0001) = .ok (.bbNext .sha1) ∧ decode (.select 0b1001) = .ok (.bbNext .sha256) := by decide
theorem test_decode_scheduler :
    decode (.select 0b0010) = .ok (.msParse .sha1) ∧ decode (.select 0b1010) = .ok (.msParse .sha256) ∧
    decode (.select 0b0011) = .ok .msExpSha1 ∧ decode (.select 0b1011) = .ok .msExpSha256 := by decide
theorem test_decode_compressor :
    decode (.select 0b0100) = .ok .cpLoadSha1 ∧ decode (.select 0b1100) = .ok .cpLoadSha256 ∧
    decode (.select 0b0101) = .ok .cpRndSha1 ∧ decode (.select 0b1101) = .ok .cpRndSha256 := by decide
/-- The reserved words of program P3, step 11. -/
theorem test_decode_rejects_reserved :
    decode (.command 0xdeadbeef) = .error .reservedBits ∧ decode (.command 5) = .error .reservedBits ∧
    decode (.command 0) = .error .startClear ∧ decode (.command 2) = .error .startClear := by decide

/-- Every row of the table runs as the first instruction after reset. -/
theorem test_every_row_runs_after_reset :
    ([(32, 1), (32, 3), (8, 0), (8, 8), (8, 1), (8, 9), (8, 2), (8, 10), (8, 3), (8, 11), (8, 4), (8, 12), (8, 5),
      (8, 13), (8, 6), (8, 14), (8, 7), (8, 15)] : List (Nat × Nat)).all
      (fun r => (nextOf (step (State.reset.withFetchWord r.1 r.2))).isSome) = true := by decide

/-! ### One step of each instruction -/

theorem test_hashSha1_accepted_when_done :
    after (exec .hashSha1 { hostState .done [] with alg := .sha256, ph := .next }) (fun s => (s.alg, s.st, s.ph)) =
      some (.sha1, .processing, .init) := by decide
/-- Program P3, step 6. -/
theorem test_hashSha256_ignored_while_processing :
    after (exec .hashSha256 (seqState .sha1 .expand)) (fun s => (s.alg, s.st, s.ph)) =
      some (.sha1, .processing, .expand) := by decide
theorem test_hashSha256_accepted :
    after (exec .hashSha256 State.reset) (fun s => (s.alg, s.st, s.ph)) = some (.sha256, .processing, .init) := by decide

/-- R213: `H[5..7]` are cleared. -/
theorem test_drvInitSha1 :
    after (exec .drvInitSha1 { State.reset with h := Vector.replicate 8 0xffffffff }) (fun s => s.h) =
      some #v[0x67452301, 0xefcdab89, 0x98badcfe, 0x10325476, 0xc3d2e1f0, 0, 0, 0] := by decide
theorem test_drvInitSha256 :
    after (exec .drvInitSha256 State.reset) (fun s => s.h) =
      some #v[0x6a09e667, 0xbb67ae85, 0x3c6ef372, 0xa54ff53a, 0x510e527f, 0x9b05688c, 0x1f83d9ab, 0x5be0cd19] := by
  decide

/-- Row B3: the single block of "abc". -/
theorem test_bbNext_abc :
    after (exec (.bbNext .sha1) State.reset.withAbc)
      (fun s => (s.blk.toList.take 4, s.blk.toList.drop 56, s.cns, s.fin)) =
      some ([0x61, 0x62, 0x63, 0x80], [0, 0, 0, 0, 0, 0, 0, 0x18], 0, true) := by decide
/-- Row B7: the terminator is the last byte of a tail block. -/
theorem test_bbNext_tail_63 :
    after (exec (.bbNext .sha1) (State.reset.withMessage 63 0))
      (fun s => (s.blk.toList.drop 60, s.cns, s.fin)) = some ([0x61, 0x61, 0x61, 0x80], 63, false) := by decide
/-- Section 3: the largest length, case Z. -/
theorem test_bbNext_largest_length :
    after (exec (.bbNext .sha256) { State.reset with len := BitVec.allOnes 61, cur := BitVec.allOnes 61 })
      (fun s => (s.blk.toList.take 1, s.blk.toList.drop 55, s.cns, s.fin)) =
      some ([0], [0, 0xff, 0xff, 0xff, 0xff, 0xff, 0xff, 0xff, 0xf8], 0, true) := by decide

/-- R100: bytes `61 62 63 80` give `61626380`; the words past 15 stay. -/
theorem test_msParse :
    after (exec (.msParse .sha1)
        { State.reset with blk := toBlock [0x61, 0x62, 0x63, 0x80], w := Vector.replicate 80 7 })
      (fun s => (s.w[0], s.w[15], s.w[16], s.t)) = some (0x61626380, 0, 7, 16) := by decide

/-- The words 0 to 15 of the block of "abc". -/
def abcWords : List Word := [0x61626380, 0, 0, 0, 0, 0, 0, 0, 0, 0, 0, 0, 0, 0, 0, 0x18]

theorem test_msExpSha1_word16 :
    after (exec .msExpSha1 (State.atIndex { State.reset with w := wordsOf abcWords } 16)) (fun s => (s.w[16], s.t)) =
      some (0xc2c4c700, 17) := by decide
theorem test_msExpSha256_word17 :
    after (exec .msExpSha256 (State.atIndex { State.reset with w := wordsOf (abcWords ++ [0x61626380]) } 17))
      (fun s => (s.w[17], s.t)) = some (0x000f0000, 18) := by decide
theorem test_msExpSha256_leaves_after_63 :
    after (exec .msExpSha256 ((seqState .sha256 .expand).atIndex 63)) (fun s => (s.t, s.ph)) = some (63, .load) := by
  decide

theorem test_cpLoadSha1_leaves_upper :
    after (exec .cpLoadSha1 { State.reset with h := #v[1, 2, 3, 4, 5, 6, 7, 8], v := Vector.replicate 8 9 })
      (fun s => (s.v, s.t, s.ph)) = some (#v[1, 2, 3, 4, 5, 9, 9, 9], 0, .round) := by decide
theorem test_cpLoadSha256 :
    after (exec .cpLoadSha256 { State.reset with h := #v[1, 2, 3, 4, 5, 6, 7, 8], v := Vector.replicate 8 9 })
      (fun s => (s.v, s.t, s.ph)) = some (#v[1, 2, 3, 4, 5, 6, 7, 8], 0, .round) := by decide

/-- R192, round 0 of "abc". -/
theorem test_cpRndSha1_round0 :
    after (exec .cpRndSha1
        { State.reset with
          v := #v[0x67452301, 0xefcdab89, 0x98badcfe, 0x10325476, 0xc3d2e1f0, 0, 0, 0], w := wordsOf abcWords })
      (fun s => s.v) = some #v[0x0116fc33, 0x67452301, 0x7bf36ae2, 0x98badcfe, 0x10325476, 0, 0, 0] := by decide
/-- R192, round 20 of "abc", where `W[20]` is zero. -/
theorem test_cpRndSha1_round20 :
    after (exec .cpRndSha1 (State.atIndex
        { State.reset with v := #v[0xfd9e1d7d, 0xdc64901d, 0x20aa99ca, 0xd3a49608, 0xc82f758b, 0, 0, 0] } 20))
      (fun s => (s.v[0], s.t)) = some (0x1a37b0ca, 21) := by decide
/-- R193, round 0 of "abc". -/
theorem test_cpRndSha256_round0 :
    after (exec .cpRndSha256
        { State.reset with
          v := #v[0x6a09e667, 0xbb67ae85, 0x3c6ef372, 0xa54ff53a, 0x510e527f, 0x9b05688c, 0x1f83d9ab, 0x5be0cd19]
          w := wordsOf abcWords })
      (fun s => s.v) =
      some #v[0x5d6aebcd, 0x6a09e667, 0xbb67ae85, 0x3c6ef372, 0xfa2a4622, 0x510e527f, 0x9b05688c, 0x1f83d9ab] := by
  decide
/-- R193, the corner case of all ones. -/
theorem test_cpRndSha256_wraps :
    after (exec .cpRndSha256
        { State.reset with v := Vector.replicate 8 0xffffffff, w := Vector.replicate 80 0xffffffff })
      (fun s => (s.v[0], s.v[1], s.v[4])) = some (0x428a2f92, 0xffffffff, 0x428a2f93) := by decide

/-- R215, "abc". -/
theorem test_drvFoldSha1 :
    after (exec .drvFoldSha1
        { State.reset with
          h := #v[0x67452301, 0xefcdab89, 0x98badcfe, 0x10325476, 0xc3d2e1f0, 0, 0, 0]
          v := #v[0x42541b35, 0x5738d5e1, 0x21834873, 0x681e6df6, 0xd8fdf6ad, 9, 9, 9] })
      (fun s => s.h) =
      some #v[0xa9993e36, 0x4706816a, 0xba3e2571, 0x7850c26c, 0x9cd0d89d, 0, 0, 0] := by decide
/-- R216, "abc". -/
theorem test_drvFoldSha256 :
    after (exec .drvFoldSha256
        { State.reset with
          h := #v[0x6a09e667, 0xbb67ae85, 0x3c6ef372, 0xa54ff53a, 0x510e527f, 0x9b05688c, 0x1f83d9ab, 0x5be0cd19]
          v := #v[0x506e3058, 0xd39a2165, 0x04d24d6c, 0xb85e2ce9, 0x5ef50f24, 0xfb121210, 0x948d25b6, 0x961f4894] })
      (fun s => s.h) =
      some #v[0xba7816bf, 0x8f01cfea, 0x414140de, 0x5dae2223, 0xb00361a3, 0x96177a9c, 0xb410ff61, 0xf20015ad] := by
  decide

/-- R217, the two steps for `LEN = 64`. -/
theorem test_drvNext_first_block :
    after (exec (.drvNext .sha1) { seqState .sha1 .next with len := 64, cns := 64 })
      (fun s => (s.cur, s.st, s.ph)) = some (64, .processing, .block) := by decide
theorem test_drvNext_final_block :
    after (exec (.drvNext .sha1) { seqState .sha1 .next with len := 64, cur := 64, fin := true })
      (fun s => (s.cur, s.st, s.ph)) = some (64, .done, .next) := by decide

/-! ### Word functions (95_test_vectors.md section 2) -/

theorem test_word_operations :
    add32 0x80000000 0x80000000 = 0 ∧ rotl 0x67452301 5 = 0xe8a4602c ∧ rotr 0x12345678 25 = 0x1a2b3c09 ∧
    shr 0x80000001 3 = 0x10000000 ∧ ch 0xffff0000 0x12345678 0x9abcdef0 = 0x1234def0 ∧
    parity 0xffff0000 0x12345678 0x9abcdef0 = 0x77778888 ∧ maj 0xffff0000 0x12345678 0x9abcdef0 = 0x9abc5670 := by
  decide
theorem test_sigma_functions :
    bsig0 0x6a09e667 = 0xce20b47e ∧ bsig1 0x6a09e667 = 0x55b65510 ∧ ssig0 0x6a09e667 = 0xba0cf582 ∧
    ssig1 0x6a09e667 = 0xcfe5da3c ∧ ssig0 0xffffffff = 0x1fffffff ∧ ssig1 0xffffffff = 0x003fffff := by decide
theorem test_round_selectors :
    k1sel 19 = 0x5a827999 ∧ k1sel 20 = 0x6ed9eba1 ∧ k1sel 59 = 0x8f1bbcdc ∧ k1sel 79 = 0xca62c1d6 := by decide

/-! ### Host port (programs P3, P4, P5) -/

/-- P3, step 15. -/
theorem test_status_while_processing_sha256 : readCsr (seqState .sha256 .init) 1 = 0x00000005 := by decide
/-- P4, steps 4 to 6: the reserved bits of `LEN_HI` are dropped. -/
theorem test_len_hi_drops_reserved_bits :
    after (step (hostState .idle [.write 3 0xffffffff])) (fun s => (s.len, readCsr s 3)) =
      some (0x1fffffff00000000, 0x1fffffff) := by decide
/-- P3, step 7: ignored while PROCESSING. -/
theorem test_len_lo_ignored_while_processing :
    after (step { seqState .sha1 .expand with len := 64, turns := [.write 2 5] }) (fun s => s.len) = some 64 := by decide
/-- R292: `WAIT` lets the sequencer step. -/
theorem test_wait_lets_the_sequencer_step :
    after (step { seqState .sha1 .init with turns := [.wait] }) (fun s => (s.ph, s.turns)) =
      some (.block, [.wait]) := by decide
/-- P5: reset during an operation. -/
theorem test_reset_abandons :
    after (step { (seqState .sha256 .round).withAbc with turns := [.assertReset, .releaseReset] })
      (fun s => (s.st, s.alg, s.len, s.done, readCsr s 1)) = some (.idle, .sha1, 0, false, 0) := by decide

/-! ### Witnesses: states that meet the hypotheses of the obligations -/

theorem test_witness_OtherCommandWordsHaveNoEffect :
    (hostState .done [.write 0 0xdeadbeef]).turns = [.write 0 0xdeadbeef] ∧ (0xdeadbeef : Word) ≠ 0x00000001 ∧
    (0xdeadbeef : Word) ≠ 0x00000003 ∧ (2 : Word) ≠ 0x00000001 ∧ (2 : Word) ≠ 0x00000003 := by decide

theorem test_witness_StepRunsTheDecodedInstruction :
    fetch (seqState .sha256 .round) = some (.select 0b1101) ∧ decode (.select 0b1101) = .ok .cpRndSha256 ∧
    Instr.cpRndSha256.wf = true ∧
    fetch (hostState .idle [.write 0 1]) = some (.command 1) ∧ decode (.command 1) = .ok .hashSha1 := by decide

/-- The three clauses: a turn while PROCESSING, a turn in DONE, a change outside PROCESSING (a write of `LEN_LO`). -/
theorem test_witness_SequencerStepsExactlyWhileProcessing :
    (seqState .sha1 .next).sequencerTurn ∧ (seqState .sha1 .next).st = .processing ∧
    (hostState .done [.seq]).sequencerTurn ∧ (hostState .done [.seq]).st ≠ .processing ∧
    (hostState .idle [.write 2 5]).st ≠ .processing ∧
    step (hostState .idle [.write 2 5]) = .next { State.reset with len := 5 } ∧
    ∃ r : Reg, ¬ r.same (hostState .idle [.write 2 5]) { State.reset with len := 5 } :=
  ⟨⟨rfl, .inl rfl⟩, rfl, ⟨rfl, .inr (.inl ⟨_, rfl⟩)⟩, by decide, by decide, rfl, .len, by unfold Reg.same; decide⟩

theorem test_witness_CommandWriteRunsTheCommand :
    (hostState .done [.write 0 1]).inReset = false ∧ (hostState .done [.write 0 1]).turns = [.write 0 0x00000001] ∧
    (hostState .processing [.write 0 3]).inReset = false ∧
    (hostState .processing [.write 0 3]).turns = [.write 0 0x00000003] := by decide

theorem test_witness_AssertedResetAbandonsTheOperation :
    { (seqState .sha256 .round).withAbc with turns := [.assertReset, .releaseReset] }.turns =
      [.assertReset, .releaseReset] := by decide

/-- A state under reset with the given turns. -/
def resetHeld (ts : List Turn) : State := { hostState .idle ts with inReset := true }

/-- Each kind of turn that the statement names. -/
theorem test_witness_AssertedResetHoldsTheInstance :
    (resetHeld []).inReset = true ∧ (resetHeld []).turns = [] ∧ (resetHeld [.seq]).turns = [.seq] ∧
    (resetHeld [.wait]).turns = [.wait] ∧ (resetHeld [.write 0 1]).turns = [.write 0 1] ∧
    (resetHeld [.read 1]).turns = [.read 1] := by decide

theorem test_witness_StatusShowsBusyDoneAndAlg :
    (hostState .done [.read 1]).inReset = false ∧ (hostState .done [.read 1]).turns = [.read 1] ∧
    (hostState .done [.write 1 7]).inReset = false ∧ (hostState .done [.write 1 7]).turns = [.write 1 7] := by decide

theorem test_witness_LengthRegistersHoldTheHalvesOfLen :
    (hostState .idle [.write 2 0xffffffff]).inReset = false ∧
    (hostState .idle [.write 2 0xffffffff]).turns = [.write 2 0xffffffff] ∧
    (hostState .idle [.write 2 0xffffffff]).st ≠ .processing ∧
    (hostState .done [.write 3 0xffffffff]).turns = [.write 3 0xffffffff] ∧
    (hostState .done [.write 3 0xffffffff]).st ≠ .processing ∧
    (hostState .processing [.write 3 1]).turns = [.write 3 1] ∧
    (hostState .processing [.write 3 1]).st = .processing := by decide

/-- The invariant in a state with no message, not PROCESSING. -/
theorem inv_hostState (st : DriverState) (ts : List Turn) (h : st ≠ .processing) : (hostState st ts).Inv where
  memory := rfl
  reset h := by cases h
  position hp := absurd hp h
  upperHash _ _ := ⟨rfl, rfl, rfl⟩

/-- In DONE and outside it, and at the ends 5 and 7 of the words that SHA-1 leaves zero. -/
theorem test_witness_DigestRegistersAreGatedByDone :
    (hostState .done [.read 9]).inReset = false ∧ (hostState .done [.read 9]).st = .done ∧
    (hostState .processing []).st ≠ .done ∧ (hostState .done [.read 9]).Inv ∧
    (hostState .done [.read 9]).alg = .sha1 ∧ (hostState .done [.read 9]).turns = [.read (4 + (5 : Fin 8).val)] ∧
    (hostState .done [.write 11 1]).turns = [.write (4 + (7 : Fin 8).val) 1] :=
  ⟨rfl, rfl, by decide, inv_hostState _ _ (by decide), rfl, rfl, rfl⟩

/-- The first register past the map, and `CTRL`. -/
theorem test_witness_AbsentRegistersReadZeroAndIgnoreWrites :
    12 ≤ 12 ∧ (hostState .done [.read 12]).turns = [.read 12] ∧
    (hostState .done [.write 12 1]).turns = [.write 12 1] ∧ (hostState .done [.read 0]).turns = [.read 0] := by decide

/-- A write of each register that has an effect, and of one that has none. -/
theorem test_witness_HostAccessesChangeOnlyLenAndTheCommandState :
    (hostState .idle [.read 0]).turns = [.read 0] ∧ (hostState .idle [.write 0 1]).turns = [.write 0 1] ∧
    (hostState .idle [.write 2 1]).turns = [.write 2 1] ∧ (hostState .idle [.write 4 1]).turns = [.write 4 1] := by
  decide

theorem test_witness_DoneOutputFollowsTheDriver :
    (hostState .done []).inReset = false ∧ (resetHeld []).Inv ∧ (resetHeld []).inReset = true ∧
    (hostState .done [.write 0 3]).acceptsCommand .sha256 :=
  ⟨rfl, ⟨rfl, fun _ => rfl, (fun h => by cases h), fun _ _ => ⟨rfl, rfl, rfl⟩⟩, rfl, rfl, by decide, _, rfl⟩

/-- Two states in PROCESSING that differ in `H`, `T` and `PH`; two in DONE that differ in `V`. -/
theorem test_witness_HiddenRegistersAreNotHostVisible :
    (seqState .sha1 .load).inReset = (seqState .sha1 .fold).inReset ∧
    (seqState .sha1 .load).st = { seqState .sha1 .fold with h := Vector.replicate 8 1 }.st ∧
    ((seqState .sha1 .load).st = .done → False) ∧
    (hostState .done []).h = { hostState .done [] with v := Vector.replicate 8 1 }.h := by decide

theorem test_witness_CommandIsAcceptedUnlessProcessing :
    (hostState .idle []).st ≠ .processing ∧ (hostState .done []).st ≠ .processing ∧
    (seqState .sha1 .round).st = .processing := by decide

/-- `FIN` set and clear, `ALG` 0, and the two sides of a changed message. -/
theorem test_witness_DrvNextAdvancesTheCursorAndLoops :
    { seqState .sha1 .next with fin := true, msgChanged := true }.fin = true ∧ (seqState .sha1 .next).fin = false ∧
    (seqState .sha1 .next).alg = .sha1 ∧ { seqState .sha1 .next with msgChanged := true }.msgChanged = true := by decide

/-- Rows B9 and B18. -/
theorem test_witness_FullBlockCopiesSixtyFourBytes :
    ((State.reset.withMessage 64 0).cur.toNat + 64 ≤ (State.reset.withMessage 64 0).len.toNat ∧
      ∀ i, i < 64 → (Memory.read (State.reset.withMessage 64 0).msg (0 + i)).isSome) ∧
    ((State.reset.withMessage 128 64).cur.toNat + 64 ≤ (State.reset.withMessage 128 64).len.toNat ∧
      ∀ i, i < 64 → (Memory.read (State.reset.withMessage 128 64).msg (64 + i)).isSome) := by decide

/-- Rows B5 and B7: remainders 56 and 63. -/
theorem test_witness_TailBlockTakesTheTerminator :
    ((State.reset.withMessage 56 0).cur.toNat + 56 = (State.reset.withMessage 56 0).len.toNat ∧
      ∀ i, i < 56 → (Memory.read (State.reset.withMessage 56 0).msg (0 + i)).isSome) ∧
    ((State.reset.withMessage 63 0).cur.toNat + 63 = (State.reset.withMessage 63 0).len.toNat ∧
      ∀ i, i < 63 → (Memory.read (State.reset.withMessage 63 0).msg (0 + i)).isSome) := by decide

/-- Rows B2 and B4: remainders 1 and 55. -/
theorem test_witness_LastBlockTakesTerminatorAndLength :
    ((State.reset.withMessage 1 0).cur.toNat + 1 = (State.reset.withMessage 1 0).len.toNat ∧
      ∀ i, i < 1 → (Memory.read (State.reset.withMessage 1 0).msg (0 + i)).isSome) ∧
    ((State.reset.withMessage 55 0).cur.toNat + 55 = (State.reset.withMessage 55 0).len.toNat ∧
      ∀ i, i < 55 → (Memory.read (State.reset.withMessage 55 0).msg (0 + i)).isSome) := by decide

/-- Rows B1 and B10. -/
theorem test_witness_PaddingBlockAfterFullBlocksHasTerminator :
    State.reset.cur = State.reset.len ∧ State.reset.len.toNat % 64 = 0 ∧
    (State.reset.withMessage 64 64).cur = (State.reset.withMessage 64 64).len ∧
    (State.reset.withMessage 64 64).len.toNat % 64 = 0 := by decide

/-- Rows B6 and B8. -/
theorem test_witness_PaddingBlockAfterTailHasNoTerminator :
    (State.reset.withMessage 56 56).cur = (State.reset.withMessage 56 56).len ∧
    56 ≤ (State.reset.withMessage 56 56).len.toNat % 64 ∧
    (State.reset.withMessage 63 63).cur = (State.reset.withMessage 63 63).len ∧
    56 ≤ (State.reset.withMessage 63 63).len.toNat % 64 := by decide

/-- Both sides of the equivalence: `CUR` past `LEN`, `LEN mod 64` 1 and 55, and a state inside the invariant. -/
theorem test_witness_BlockBuilderRefusesExactlyOutsideTheInvariant :
    exec (.bbNext .sha1) (State.reset.withMessage 0 1) = .refused .cursorOutsideInvariant ∧
    exec (.bbNext .sha1) (State.reset.withMessage 1 1) = .refused .cursorOutsideInvariant ∧
    exec (.bbNext .sha1) (State.reset.withMessage 55 55) = .refused .cursorOutsideInvariant ∧
    (nextOf (exec (.bbNext .sha1) (State.reset.withMessage 56 56))).isSome = true := ⟨rfl, rfl, rfl, by decide⟩

/-- A sequencer at phase BLOCK with `LEN = 3` and only the first two bytes readable. -/
def missingByte (ts : List Turn) : State := { seqState .sha1 .block with len := 3, msg := aBytes 2, turns := ts }

/-- The byte at offset 2 is missing, and it is the sequencer's turn. -/
theorem test_witness_UnavailableByteLeavesTheBlockBuilderStuck :
    (missingByte []).cur.toNat + 2 < (missingByte []).len.toNat ∧ (2 : Nat) < 64 ∧
    Memory.read (missingByte []).msg ((missingByte []).cur.toNat + 2) = none ∧ (missingByte []).sequencerTurn ∧
    (missingByte []).st = .processing ∧ (missingByte []).ph = .block :=
  ⟨by decide, by decide, by decide, ⟨rfl, .inl rfl⟩, rfl, rfl⟩

/-- U4: the step is not enabled and there is no error state; the host still reads `BUSY`, and the operation goes on once
the platform has the byte. -/
theorem test_stuck_block_builder_waits :
    after (runSteps 2 (missingByte [.seq, .read 1])) (fun s => (s.st, s.ph, s.rdata)) = some (.processing, .block, 1) ∧
    after (runSteps 3 (missingByte [.seq, .store 2 0x61, .seq])) (fun s => (s.ph, s.fin)) = some (.parse, true) := by
  decide

/-- `LEN = 3`, `CUR = 0`, and a memory that differs past the message. -/
theorem test_witness_BlockBuilderReadsOnlyItsPayload :
    padCase State.reset.withAbc.len.toNat State.reset.withAbc.cur.toNat = some .last ∧
    (∀ i, i < payloadLength .last 3 →
      Memory.read (State.reset.withAbc.msg ++ [(3, 1)]) (0 + i) = Memory.read State.reset.withAbc.msg (0 + i)) ∧
    (nextOf (exec (.bbNext .sha1) State.reset.withAbc)).isSome = true := by decide

/-- Both values of the flag: rows B3 and B7. -/
theorem test_witness_FinIsSetExactlyWhenNothingIsConsumed :
    State.reset.withAbc.blockReadable ∧ (State.reset.withMessage 63 0).blockReadable ∧
    after (exec (.bbNext .sha1) State.reset.withAbc) (fun s => (s.fin, s.cns)) = some (true, 0) ∧
    after (exec (.bbNext .sha1) (State.reset.withMessage 63 0)) (fun s => (s.fin, s.cns)) = some (false, 63) := by
  refine ⟨?_, ?_, by decide, by decide⟩
  · intro c hc
    cases (show some PadCase.last = some c from hc)
    decide
  · intro c hc
    cases (show some PadCase.tail = some c from hc)
    decide

/-- A block of a message of 56 bytes: the first one and the last one. -/
theorem test_witness_BlocksArePiecesOfThePaddedMessage :
    (State.reset.withMessage 56 0).holds (List.replicate 56 0x61) ∧ 0 < blockCount 56 ∧ 0 = cursorAt 56 0 ∧
    (State.reset.withMessage 56 56).holds (List.replicate 56 0x61) ∧ 1 < blockCount 56 ∧ 56 = cursorAt 56 1 :=
  ⟨rfl, by decide, by decide, rfl, by decide, by decide⟩

/-- The ends 16 and 79 of the SHA-1 schedule. -/
theorem test_witness_Sha1ExpansionComputesOneWord :
    ((seqState .sha1 .expand).atIndex 16).t.toNat = 16 ∧ ((seqState .sha1 .expand).atIndex 79).t.toNat = 79 := by decide

/-- The ends 16 and 63 of the SHA-256 schedule. -/
theorem test_witness_Sha256ExpansionComputesOneWord :
    ((seqState .sha256 .expand).atIndex 16).t.toNat = 16 ∧ ((seqState .sha256 .expand).atIndex 63).t.toNat = 63 := by
  decide

/-- Each phase of each algorithm, free-running: the hypotheses of `ScheduleIsBuiltFromTheBlock`,
`RoundsComputeTheCompression` and `OperationTakesExactlyTheStatedSteps`. -/
theorem test_witness_free_running (a : Alg) (p : Phase) :
    (seqState a p).free ∧ (seqState a p).st = .processing ∧ (seqState a p).ph = p ∧ (seqState a p).alg = a :=
  ⟨⟨rfl, rfl⟩, rfl, rfl, rfl⟩

/-- The ends 0 and 79, and 0 and 63, of the rounds. -/
theorem test_witness_rounds :
    ((seqState .sha1 .round).atIndex 0).t.toNat = 0 ∧ ((seqState .sha1 .round).atIndex 79).t.toNat = 79 ∧
    ((seqState .sha256 .round).atIndex 0).t.toNat = 0 ∧ ((seqState .sha256 .round).atIndex 63).t.toNat = 63 := by decide

/-- Both sides of each equivalence, at the first value outside the range. -/
theorem test_witness_IndexOutsideItsRangeIsRefused :
    exec .msExpSha1 ((seqState .sha1 .expand).atIndex 15) = .refused .indexOutsideRange ∧
    exec .msExpSha1 ((seqState .sha1 .expand).atIndex 80) = .refused .indexOutsideRange ∧
    exec .msExpSha256 ((seqState .sha256 .expand).atIndex 64) = .refused .indexOutsideRange ∧
    exec .cpRndSha1 ((seqState .sha1 .round).atIndex 80) = .refused .indexOutsideRange ∧
    exec .cpRndSha256 ((seqState .sha256 .round).atIndex 64) = .refused .indexOutsideRange :=
  ⟨rfl, rfl, rfl, rfl, rfl⟩

/-- Amounts 1 and 31, bits 0 and 31, rounds 0 and 79: the ranges of the word-function statements. -/
theorem test_witness_word_function_ranges :
    1 ≤ 1 ∧ 1 ≤ 31 ∧ 31 ≤ 31 ∧ 0 < 32 ∧ 31 < 32 ∧ 0 ≤ 79 ∧ 0 ≤ 19 ∧ 20 ≤ 39 ∧ 40 ≤ 59 ∧ 60 ≤ 79 ∧ 79 ≤ 79 := by decide

/-- The invariant in PROCESSING, at the phase that asks the most of the state: a round of SHA-256 in the last block. -/
theorem inv_round : { (seqState .sha256 .round).withAbc with fin := true }.Inv where
  memory := by decide
  reset h := by cases h
  position _ := ⟨⟨⟨fun _ => rfl, fun _ => rfl⟩, by decide, fun h => by cases h⟩, by decide⟩
  upperHash _ h := by cases h

theorem test_witness_EveryStepKeepsTheInvariant :
    { (seqState .sha256 .round).withAbc with fin := true }.Inv ∧
    (nextOf (step { (seqState .sha256 .round).withAbc with fin := true })).isSome = true := ⟨inv_round, by decide⟩

/-- A round, and a `BB.NEXT` that waits for a byte. -/
theorem test_witness_InvariantStatesAlwaysStep :
    { (seqState .sha256 .round).withAbc with fin := true }.Inv ∧ (missingByte []).Inv :=
  ⟨inv_round, ⟨by decide, (fun h => by cases h), fun _ => by simp [State.positionOk, missingByte, seqState, cursorOk, State.reset], fun _ _ => ⟨rfl, rfl, rfl⟩⟩⟩

/-- A round, where the premise on phase BLOCK holds of itself, and a block of "abc", where it asks for the bytes. -/
theorem test_witness_SequencerFollowsTheSuccessorTable :
    let s := { (seqState .sha256 .round).withAbc with fin := true }
    let t := (seqState .sha1 .block).withAbc
    (s.Inv ∧ s.sequencerTurn ∧ s.st = .processing ∧ s.ph ≠ .block ∧ (nextOf (step s)).isSome = true) ∧
    t.Inv ∧ t.sequencerTurn ∧ t.st = .processing ∧ t.blockReadable ∧ (nextOf (step t)).isSome = true := by
  refine ⟨⟨inv_round, ⟨rfl, .inl rfl⟩, rfl, by decide, by decide⟩, ⟨by decide, (fun h => by cases h), ?_, ?_⟩,
    ⟨rfl, .inl rfl⟩, rfl, ?_, by decide⟩
  · intro _; exact ⟨by decide, .inl rfl⟩
  · intro _ _; exact ⟨rfl, rfl, rfl⟩
  · intro c hc
    cases (show some PadCase.last = some c from hc)
    decide

/-- One state for each clause: reset asserted, a command accepted, the final `DRV.NEXT`, and none of them. -/
theorem test_witness_DriverStateChangesOnlyAsTheTableSays :
    (hostState .done [.assertReset]).assertsReset ∧ (hostState .done [.write 0 1]).acceptsCommand .sha1 ∧
    ({ seqState .sha1 .next with fin := true }.performs [.next] ∧ { seqState .sha1 .next with fin := true }.fin = true) ∧
    (¬ (hostState .idle [.read 1]).assertsReset ∧ ∀ a, ¬ (hostState .idle [.read 1]).acceptsCommand a) ∧
    ¬ ((hostState .idle [.read 1]).performs [.next] ∧ (hostState .idle [.read 1]).fin = true) ∧
    (nextOf (step (hostState .idle [.read 1]))).isSome = true := by
  refine ⟨⟨_, rfl⟩, ⟨rfl, by decide, _, rfl⟩, ⟨⟨⟨rfl, .inl rfl⟩, rfl, by decide⟩, rfl⟩, ⟨?_, ?_⟩, ?_, by decide⟩
  · rintro ⟨r, h⟩; cases h
  · rintro a ⟨-, -, r, h⟩; cases h
  · rintro ⟨-, h⟩; cases h

/-- A step that changes `ALG`, and a step while PROCESSING. -/
theorem test_witness_OperandsAreConstantDuringAnOperation :
    ¬ (hostState .done [.write 0 3]).assertsReset ∧
    after (step (hostState .done [.write 0 3])) (fun s => s.alg) = some .sha256 ∧
    ¬ (seqState .sha1 .init).assertsReset ∧ (seqState .sha1 .init).st = .processing ∧
    (nextOf (step (seqState .sha1 .init))).isSome = true := by
  refine ⟨?_, by decide, ?_, rfl, by decide⟩
  · rintro ⟨r, h⟩; cases h
  · rintro ⟨r, h⟩; cases h

/-- A store, for both clauses. -/
theorem test_witness_ProcessorNeverWritesMemory :
    (hostState .idle [.store 5 0x61]).turns = [.store 5 0x61] ∧
    after (step (hostState .idle [.store 5 0x61])) (fun s => (Memory.read s.msg 5, Memory.read s.msg 4)) =
      some (some 0x61, none) := by decide

/-- The registers of a state that hold the same in another, without `LEN`, `ALG` and `ST`. -/
def hiddenSame (s s' : State) : List Bool :=
  [decide (s'.h = s.h), decide (s'.v = s.v), decide (s'.w = s.w), decide (s'.blk = s.blk), decide (s'.cns = s.cns),
    decide (s'.fin = s.fin), decide (s'.cur = s.cur), decide (s'.t = s.t), decide (s'.ph = s.ph)]

/-- A state with other values than reset in the hidden registers. -/
def dirtyState (a : Alg) (p : Phase) : State :=
  State.atIndex { (seqState a p).withAbc with
    h := #v[1, 2, 3, 4, 5, 0, 0, 0], v := Vector.replicate 8 9, w := Vector.replicate 80 7,
    blk := Vector.replicate 64 5, cns := 64, fin := true } 20

/-- Every clause: each hidden register changes in some step that is not a reset. -/
theorem test_witness_HiddenRegistersChangeOnlyByTheirWriters :
    (∀ a p, ¬ (dirtyState a p).assertsReset) ∧ ¬ (hostState .done [.write 0 1]).assertsReset ∧
    after (step (dirtyState .sha1 .init)) (hiddenSame (dirtyState .sha1 .init)) =
      some [false, true, true, true, true, false, true, true, false] ∧
    after (step (dirtyState .sha1 .block)) (hiddenSame (dirtyState .sha1 .block)) =
      some [true, true, true, false, false, true, true, true, false] ∧
    after (step (dirtyState .sha1 .parse)) (hiddenSame (dirtyState .sha1 .parse)) =
      some [true, true, false, true, true, true, true, false, false] ∧
    after (step (dirtyState .sha1 .load)) (hiddenSame (dirtyState .sha1 .load)) =
      some [true, false, true, true, true, true, true, false, false] ∧
    after (step (dirtyState .sha1 .next)) (hiddenSame (dirtyState .sha1 .next)) =
      some [true, true, true, true, true, true, false, true, true] ∧
    after (step { hostState .done [.write 0 1] with ph := .next }) (fun s => s.ph) = some .init := by
  refine ⟨?_, ?_, by decide, by decide, by decide, by decide, by decide, by decide⟩
  · rintro a p ⟨r, h⟩; cases h
  · rintro ⟨r, h⟩; cases h

theorem test_witness_OperationTakesExactlyTheStatedSteps :
    (seqState .sha1 .init).withAbc.free ∧ (seqState .sha1 .init).withAbc.st = .processing ∧
    (seqState .sha1 .init).withAbc.ph = .init ∧ (seqState .sha1 .init).withAbc.messageReadable :=
  ⟨⟨rfl, rfl⟩, rfl, rfl, by
    intro off h
    have h : off < 3 := h
    interval_cases off <;> rfl⟩

/-- One turn of each kind that may follow a command on the message "abc". -/
def followingTurns : List Turn := [.read 4, .write 2 5, .write 0 3, .seq, .store 3 1, .releaseReset, .wait, .read 4]

theorem test_witness_Sha1CommandDeliversTheDigest :
    let s := (hostState .done (.write 0 1 :: followingTurns)).withAbc
    s.inReset = false ∧ s.st ≠ .processing ∧ s.turns = .write 0 0x00000001 :: followingTurns ∧
    s.holds [0x61, 0x62, 0x63] ∧ ∀ x ∈ followingTurns, x.harmless s.len = true :=
  ⟨rfl, by decide, rfl, rfl, by decide⟩

theorem test_witness_Sha256CommandDeliversTheDigest :
    let s := (hostState .idle (.write 0 3 :: followingTurns)).withAbc
    s.inReset = false ∧ s.st ≠ .processing ∧ s.turns = .write 0 0x00000003 :: followingTurns ∧
    s.holds [0x61, 0x62, 0x63] ∧ ∀ x ∈ followingTurns, x.harmless s.len = true :=
  ⟨rfl, by decide, rfl, rfl, by decide⟩

/-- A store below `LEN` and an assertion of reset are not harmless. -/
theorem test_harmful_turns :
    (Turn.store 2 1).harmless 3 = false ∧ (Turn.store 3 1).harmless 3 = true ∧ Turn.assertReset.harmless 3 = false := by
  decide

/-- Two states with different turns, different leftovers in `V` and a byte past the message. -/
theorem test_witness_DigestDependsOnlyOnTheMessage :
    let s := (seqState .sha1 .init).withAbc
    let t := { s with v := Vector.replicate 8 1, msg := s.msg ++ [(3, 1)], turns := followingTurns }
    s.inReset = false ∧ t.inReset = false ∧ (∀ x ∈ s.turns, x.harmless s.len = true) ∧
    (∀ x ∈ t.turns, x.harmless t.len = true) ∧ s.st = .processing ∧ t.st = .processing ∧ s.ph = .init ∧ t.ph = .init ∧
    s.msgChanged = false ∧ t.msgChanged = false ∧ s.alg = t.alg ∧ s.len = t.len ∧ s.messageReadable ∧
    ∀ off, off < s.len.toNat → Memory.read s.msg off = Memory.read t.msg off := by
  refine ⟨rfl, rfl, by decide, by decide, rfl, rfl, rfl, rfl, rfl, rfl, rfl, rfl, ?_, ?_⟩
  · intro off h
    have h : off < 3 := h
    interval_cases off <;> rfl
  · intro off h
    have h : off < 3 := h
    interval_cases off <;> rfl

/-- Program P1 with the stores of "abc" before it; `SHA256 0`, the message of no byte, is the other end
of the range. -/
theorem test_witness_HostProgramsReadTheDigest :
    let s := hostState .done (msgTurns [0x61, 0x62, 0x63] ++ sha1Turns (BitVec.ofNat 61 3))
    let t := hostState .idle (msgTurns [] ++ sha256Turns (BitVec.ofNat 61 0))
    s.inReset = false ∧ s.st ≠ .processing ∧ ([0x61, 0x62, 0x63] : List Byte).length < 2 ^ 61 ∧
    s.turns = [.store 0 0x61, .store 1 0x62, .store 2 0x63, .write 2 3, .write 3 0, .write 0 1, .wait, .read 4, .read 5,
      .read 6, .read 7, .read 8] ∧
    t.inReset = false ∧ t.st ≠ .processing ∧ ([] : List Byte).length < 2 ^ 61 ∧
    t.turns = [.write 2 0, .write 3 0, .write 0 3, .wait, .read 4, .read 5, .read 6, .read 7, .read 8, .read 9,
      .read 10, .read 11] := by decide

end Sys2Proof.Machine
end

/-! The host registers (10_state.md R35 to R48): what a read of each register returns, what a write turn does, and the
statements about them. -/

namespace Sys2Proof.Machine

/-! ### What a read returns -/

theorem readCsr_lenLo {s : State} (hr : s.inReset = false) : readCsr s 2 = lenLo s.len := by simp [readCsr, hr]

theorem readCsr_lenHi {s : State} (hr : s.inReset = false) : readCsr s 3 = lenHi s.len := by simp [readCsr, hr]

/-- `CTRL` reads 0, reset asserted or not (R36). -/
@[simp] theorem readCsr_ctrl (s : State) : readCsr s 0 = 0 := by simp [readCsr]

/-- A register past the map reads 0, reset asserted or not (R41). -/
theorem readCsr_absent (s : State) {reg : Nat} (h : 12 ≤ reg) : readCsr s reg = 0 := by
  unfold readCsr
  rw [if_neg (by omega : ¬ reg = 1), if_neg (by omega : ¬ reg = 2), if_neg (by omega : ¬ reg = 3),
    if_neg (by omega : ¬ (4 ≤ reg ∧ reg ≤ 11)), ite_self]

/-- `STATUS` is the zero word in IDLE under SHA-1 (R37). -/
theorem statusWord_idle {s : State} (hst : s.st = .idle) (ha : s.alg = .sha1) : statusWord s = 0 := by
  simp only [statusWord, State.busy, State.done, hst, ha]
  rfl

/-- With the registers that R48 names at their reset values every host register reads 0: `STATUS` and `LEN` hold zeros,
and the digest is gated by DONE. -/
theorem readCsr_of_reset_values {s : State} (hst : s.st = .idle) (ha : s.alg = .sha1) (hl : s.len = 0) (reg : Nat) :
    readCsr s reg = 0 := by
  have hd : s.st ≠ .done := by simp [hst]
  unfold readCsr
  rw [statusWord_idle hst ha, hl, if_neg hd]
  split_ifs <;> rfl

/-- Under SHA-1 each of the words `H[5]` to `H[7]` is zero (R21). -/
theorem upperHash_eq_zero {s : State} (h : s.upperHashOk) (ha : s.alg = .sha1) {i : Fin 8} (hi : 5 ≤ i.val) :
    s.h[i] = 0 := by
  obtain ⟨h5, h6, h7⟩ := h ha
  obtain rfl | rfl | rfl : i = 5 ∨ i = 6 ∨ i = 7 := by omega
  · exact h5
  · exact h6
  · exact h7

/-! ### What a write turn does -/

/-- While PROCESSING a register write has no effect (R38, R39). -/
theorem writeCsr_processing {s : State} (hp : s.st = .processing) (reg : Nat) (v : Word) : writeCsr s reg v = s := by
  simp [writeCsr, hp]

/-- A write of a register other than the two halves of `LEN` has no effect (R37, R40, R41). -/
theorem writeCsr_of_ne {reg : Nat} (s : State) (v : Word) (h2 : reg ≠ 2) (h3 : reg ≠ 3) : writeCsr s reg v = s := by
  simp [writeCsr, h2, h3]

theorem writeCsr_lenLo {s : State} (hr : s.inReset = false) (hp : s.st ≠ .processing) (v : Word) :
    (writeCsr s 2 v).len = withLenLo s.len v := by
  simp [writeCsr, hr, hp]

theorem writeCsr_lenHi {s : State} (hr : s.inReset = false) (hp : s.st ≠ .processing) (v : Word) :
    (writeCsr s 3 v).len = withLenHi s.len v := by
  simp [writeCsr, hr, hp]

/-- The frame of a write of a register other than `CTRL`. -/
theorem writeCsr_frame (s : State) (reg : Nat) (v : Word) : onlyWrites [.len] s (writeCsr s reg v) :=
  ⟨fun r hr => by cases r <;> simp [Reg.same] at hr ⊢, by simp⟩

/-- The frame of the acceptance of a command (R210 to R212). -/
theorem accept_frame (s : State) (a : Alg) : onlyWrites [.alg, .st, .ph] s (s.accept a) :=
  ⟨fun r hr => by cases r <;> simp [Reg.same] at hr ⊢, by simp⟩

/-- A frame may list more registers than are written. -/
theorem onlyWrites_mono {rs rs' : List Reg} {s s' : State} (hsub : rs ⊆ rs') (h : onlyWrites rs s s') :
    onlyWrites rs' s s' :=
  ⟨fun r hr => h.1 r fun hm => hr (hsub hm), h.2⟩

/-- The step of a write of a register other than `CTRL`, with the turn written out. -/
theorem step_write_eq {s : State} {reg : Nat} {v : Word} {rest : List Turn} (h : s.turns = .write reg v :: rest)
    (h0 : reg ≠ 0) : step s = .next (writeCsr { s with turns := rest } reg v) := by
  rw [step_write h h0, popTurn_eq h]

/-- A write of a register that is none of `CTRL`, `LEN_LO` and `LEN_HI` uses up the turn alone. -/
theorem step_write_of_ne {s : State} {reg : Nat} {v : Word} {rest : List Turn} (h : s.turns = .write reg v :: rest)
    (h0 : reg ≠ 0) (h2 : reg ≠ 2) (h3 : reg ≠ 3) : step s = .next { s with turns := rest } := by
  rw [step_write_eq h h0, writeCsr_of_ne _ _ h2 h3]

/-- While PROCESSING a write of a register other than `CTRL` uses up the turn alone. -/
theorem step_write_processing {s : State} {reg : Nat} {v : Word} {rest : List Turn}
    (h : s.turns = .write reg v :: rest) (h0 : reg ≠ 0) (hp : s.st = .processing) :
    step s = .next { s with turns := rest } := by
  rw [step_write h h0, writeCsr_processing (s := s.popTurn) hp, popTurn_eq h]

/-- A write of `CTRL` is a command accepted, or uses up the turn alone (R36, R94, R212, R280). -/
theorem step_write_ctrl {s : State} {v : Word} {rest : List Turn} (h : s.turns = .write 0 v :: rest) :
    (∃ a, step s = .next (State.accept { s with turns := rest } a)) ∨ step s = .next { s with turns := rest } := by
  rw [← popTurn_eq h]
  rcases step_cases s with ⟨⟨-, hs⟩, -⟩ | ⟨a, -, hs⟩ | ⟨-, -, -, hs⟩ | ⟨-, -, -, hs⟩
  · simp [h] at hs
  · exact .inl ⟨a, hs⟩
  · exact .inr hs
  · have hw : hostTurn s = s.popTurn := by
      simp only [hostTurn, h]
      exact writeCsr_of_ne _ _ (by decide) (by decide)
    exact .inr (by rw [hs, hw])

end Sys2Proof.Machine

namespace Sys2Proof.Proofs

open Sys2Proof.Machine

/-- Settles O14: the one case split is whether the written register is `CTRL`, where a command may be accepted, or
another, where `writeCsr` runs. -/
theorem hostAccessesChangeOnlyLenAndTheCommandState : Obligations.HostAccessesChangeOnlyLenAndTheCommandState := by
  intro s reg rest
  refine ⟨fun ht => ⟨_, step_read ht, rfl, onlyWrites_refl _ _⟩, fun v ht => ?_⟩
  by_cases h0 : reg = 0
  · subst h0
    obtain ⟨a, hs⟩ | hs := step_write_ctrl ht
    · exact ⟨_, hs, onlyWrites_mono (by simp) (accept_frame _ a), fun h => absurd rfl h, fun _ _ => by simp⟩
    · exact ⟨_, hs, onlyWrites_refl _ _, fun _ => ⟨rfl, rfl, rfl⟩, fun _ _ => rfl⟩
  · refine ⟨_, step_write_eq ht h0, onlyWrites_mono (by simp) (writeCsr_frame _ reg v), fun _ => by simp, ?_⟩
    intro h2 h3
    rw [writeCsr_of_ne _ _ h2 h3]

/-- Settles O10, from the bits of the `STATUS` word; `BUSY` and `DONE` are values of the one register `ST`. -/
theorem statusShowsBusyDoneAndAlg : Obligations.StatusShowsBusyDoneAndAlg := by
  intro s hr
  have h0 : (readCsr s 1).getLsbD 0 = decide (s.st = .processing) := by
    rw [readCsr_status hr, statusWord_bit, if_pos rfl, busy_eq]
  have h1 : (readCsr s 1).getLsbD 1 = decide (s.st = .done) := by
    rw [readCsr_status hr, statusWord_bit, if_neg (by decide), if_pos rfl, done_eq]
  refine ⟨h0, h1, ?_, fun i hi => ?_, ?_, fun rest ht => step_read ht, fun v rest ht => ?_⟩
  · rw [readCsr_status hr, statusWord_bit, if_neg (by decide), if_neg (by decide), if_pos rfl]
  · rw [readCsr_status hr, statusWord_bit, if_neg (by omega), if_neg (by omega), if_neg (by omega)]
  · rw [h0, h1, decide_eq_true_iff, decide_eq_true_iff]
    rintro ⟨hp, hd⟩
    rw [hp] at hd
    cases hd
  · exact step_write_of_ne ht (by decide) (by decide) (by decide)

/-- Settles O11, from the two halves of `LEN` as numbers. -/
theorem lengthRegistersHoldTheHalvesOfLen : Obligations.LengthRegistersHoldTheHalvesOfLen := by
  intro s v rest hr
  refine ⟨by rw [readCsr_lenLo hr, lenLo_toNat], by rw [readCsr_lenHi hr, lenHi_toNat], ?_, ?_, ?_⟩
  · intro ht hp
    refine ⟨_, step_write_eq ht (by decide), ?_, writeCsr_frame _ _ _⟩
    rw [writeCsr_lenLo (s := { s with turns := rest }) hr hp, withLenLo_toNat]
  · intro ht hp
    refine ⟨_, step_write_eq ht (by decide), ?_, writeCsr_frame _ _ _⟩
    rw [writeCsr_lenHi (s := { s with turns := rest }) hr hp, withLenHi_toNat]
  · rintro (ht | ht) hp
    · exact step_write_processing ht (by decide) hp
    · exact step_write_processing ht (by decide) hp

/-- Settles O12: the gate is `readCsr_digest`; that `DIGEST5` to `DIGEST7` read 0 under SHA-1 is the invariant's clause
on the upper words of `H`, needed in DONE only. -/
theorem digestRegistersAreGatedByDone : Obligations.DigestRegistersAreGatedByDone := by
  intro s i rest hr
  refine ⟨fun hd => ?_, fun hd => ?_, fun hinv ha hi => ?_, fun ht => step_read ht, fun v ht => ?_⟩
  · rw [readCsr_digest hr, if_pos hd]
  · rw [readCsr_digest hr, if_neg hd]
  · rw [readCsr_digest hr]
    split
    · next hd => exact upperHash_eq_zero (hinv.upperHash (.inr hd)) ha hi
    · rfl
  · exact step_write_of_ne ht (by omega) (by omega) (by omega)

/-- Settles O7: the state after reset has the values of R48, with which every register reads 0. -/
theorem resetStateIsIdleAndReadsZero : Obligations.ResetStateIsIdleAndReadsZero :=
  ⟨rfl, rfl, rfl, rfl, readCsr_of_reset_values rfl rfl rfl⟩

/-- Settles O13, from what the absent registers and `CTRL` read and from the ignored writes. -/
theorem absentRegistersReadZeroAndIgnoreWrites : Obligations.AbsentRegistersReadZeroAndIgnoreWrites := by
  refine ⟨fun s reg rest hreg => ⟨fun ht => ?_, fun v ht => ?_⟩, fun s => ⟨readCsr_ctrl s, fun rest ht => ?_⟩⟩
  · rw [step_read ht, readCsr_absent s hreg]
  · exact step_write_of_ne ht (by omega) (by omega) (by omega)
  · rw [step_read ht, readCsr_ctrl]

end Sys2Proof.Proofs

/-! The encodings (30_encoding.md R92 to R96): what the decoder reads from a word of each format, and what a written
word that is no command does. -/

namespace Sys2Proof.Machine

/-! ### Words of the two formats -/

/-- A word of 32 bits is a command word (R91): it decodes to what the decoder reads from it as such. -/
theorem decodeTableWord_command {w : Word} {i : Instr} (h : decode (.command w) = .ok i) :
    decodeTableWord 32 w.toNat = some i := by
  have hc : codeOfTableWord 32 w.toNat = some (.command w) := by
    simp [codeOfTableWord, isSelectWord, isCommandWord, w.isLt]
  simp [decodeTableWord, hc, h]

/-- A code of 4 bits is a select code (R95): that of `ALG ‖ PH` decodes to the micro-operation of R96. -/
theorem decodeTableWord_selectCode (a : Alg) (p : Phase) :
    decodeTableWord 8 (selectCode a p).toNat = some (microOp a p) := by
  have hc : codeOfTableWord 8 (selectCode a p).toNat = some (.select (selectCode a p)) := by
    simp [codeOfTableWord, isSelectWord, (selectCode a p).isLt]
  simp [decodeTableWord, hc]

/-! ### A written word that is no command -/

/-- While reset is asserted no turn runs an operation (R280). -/
theorem step_inReset {s : State} (hr : s.inReset = true) : step s = .next (hostTurn s) := by
  simp [step, fetch, hr]

/-- As a turn that runs no operation, a write of `CTRL` only uses itself up. -/
theorem hostTurn_write_ctrl {s : State} {w : Word} {rest : List Turn} (h : s.turns = .write 0 w :: rest) :
    hostTurn s = s.popTurn := by
  simp only [hostTurn, h]
  exact writeCsr_of_ne _ _ (by decide) (by decide)

end Sys2Proof.Machine

namespace Sys2Proof.Proofs

open Sys2Proof.Machine

/-- Settles O1: the commands by the two command words, each select code as the code `ALG ‖ PH` of its operation. -/
theorem wordsOfTheOpcodeTableDecode : Obligations.WordsOfTheOpcodeTableDecode :=
  have select := decodeTableWord_selectCode
  ⟨decodeTableWord_command decode_sha1, decodeTableWord_command decode_sha256,
    select .sha1 .init, select .sha256 .init, select .sha1 .block, select .sha256 .block,
    select .sha1 .parse, select .sha256 .parse, select .sha1 .expand, select .sha256 .expand,
    select .sha1 .load, select .sha256 .load, select .sha1 .round, select .sha256 .round,
    select .sha1 .fold, select .sha256 .fold, select .sha1 .next, select .sha256 .next⟩

/-- Settles O3: under reset the write runs no operation whatever its word; otherwise the decoder rejects the word. -/
theorem otherCommandWordsHaveNoEffect : Obligations.OtherCommandWordsHaveNoEffect := by
  intro s w rest ht h1 h3
  rw [← popTurn_eq ht]
  cases hr : s.inReset with
  | true => rw [step_inReset hr, hostTurn_write_ctrl ht]
  | false =>
    obtain ⟨e, he⟩ := decode_other w h1 h3
    exact step_ignored hr ht he

end Sys2Proof.Proofs

/-! The word operations (40_constants_wordops.md R120, R123 to R126) by number and by bit, and the SHA-1 selectors of the
round (R127, R128) in each range of rounds. -/

namespace Sys2Proof.Machine

/-! ### Sums of several terms -/

/-- A sum of terms taken one at a time is the sum of the numbers, reduced once. -/
theorem foldl_add32_toNat (ws : List Word) (a : Word) :
    (ws.foldl add32 a).toNat = (a.toNat + (ws.map BitVec.toNat).sum) % 2 ^ 32 := by
  induction ws generalizing a with
  | nil => exact (Nat.mod_eq_of_lt a.isLt).symm
  | cons w ws ih =>
    rw [List.foldl_cons, ih, add32_toNat, Nat.mod_add_mod, List.map_cons, List.sum_cons, Nat.add_assoc]

/-- The order of the terms does not matter. -/
theorem foldl_add32_perm {ws us : List Word} (h : ws.Perm us) (a : Word) : us.foldl add32 a = ws.foldl add32 a := by
  apply BitVec.eq_of_toNat_eq
  rw [foldl_add32_toNat, foldl_add32_toNat, (h.map BitVec.toNat).sum_nat]

/-! ### Shift and Boolean combinators -/

theorem shr_toNat (x : Word) (n : Nat) : (shr x n).toNat = x.toNat / 2 ^ n := by
  rw [shr, BitVec.toNat_ushiftRight, Nat.shiftRight_eq_div_pow]

/-- A bit of Choose: `x` chooses between `y` and `z`. -/
theorem ch_bit (x y z : Word) {i : Nat} (hi : i < 32) :
    (ch x y z).getLsbD i = (if x.getLsbD i then y.getLsbD i else z.getLsbD i) := by
  rw [ch, BitVec.getLsbD_or, BitVec.getLsbD_and, BitVec.getLsbD_and, BitVec.getLsbD_not]
  cases x.getLsbD i <;> simp [hi]

theorem parity_bit (x y z : Word) (i : Nat) :
    (parity x y z).getLsbD i = (x.getLsbD i ^^ y.getLsbD i ^^ z.getLsbD i) := by
  rw [parity, BitVec.getLsbD_xor, BitVec.getLsbD_xor, Bool.xor_assoc]

/-- Three bits, of which some two are 1: at least two are. -/
theorem majority_eq_two_le (p q r : Bool) :
    ((p && q) || (p && r) || (q && r)) = decide (2 ≤ p.toNat + q.toNat + r.toNat) := by
  decide +revert

/-- A bit of Majority counts the three bits. -/
theorem maj_bit (x y z : Word) (i : Nat) :
    (maj x y z).getLsbD i = decide (2 ≤ (x.getLsbD i).toNat + (y.getLsbD i).toNat + (z.getLsbD i).toNat) := by
  rw [maj, BitVec.getLsbD_or, BitVec.getLsbD_or, BitVec.getLsbD_and, BitVec.getLsbD_and, BitVec.getLsbD_and,
    majority_eq_two_le]

/-! ### The selectors of a SHA-1 round -/

theorem f1_choose {t : Nat} (h : t < 20) (x y z : Word) : f1 t x y z = ch x y z := if_pos h

theorem f1_majority {t : Nat} (h1 : 40 ≤ t) (h2 : t < 60) (x y z : Word) : f1 t x y z = maj x y z := by
  rw [f1, if_neg (by omega), if_neg (by omega), if_pos h2]

/-- Parity is the round function of the second range and of every round from 60 on. -/
theorem f1_parity {t : Nat} (h : 20 ≤ t ∧ t < 40 ∨ 60 ≤ t) (x y z : Word) : f1 t x y z = parity x y z := by
  obtain ⟨h1, h2⟩ | h := h
  · rw [f1, if_neg (by omega), if_pos h2]
  · rw [f1, if_neg (by omega), if_neg (by omega), if_neg (by omega)]

/-- Range `r` of twenty rounds has constant `r`. -/
theorem k1sel_range {t r : Nat} (h1 : 20 * r ≤ t) (h2 : t < 20 * (r + 1)) : k1sel t = const k1 r := by
  rw [k1sel, show t / 20 = r by omega]

end Sys2Proof.Machine

namespace Sys2Proof.Proofs

open Sys2Proof.Machine

/-- Settles O44: sums by induction over the terms, and a bit of each combinator from the bits of its operands. -/
theorem wordOperationsByNumberAndBit : Obligations.WordOperationsByNumberAndBit := by
  refine ⟨add32_toNat, fun ws us h => ⟨?_, foldl_add32_perm h 0⟩, fun x n _ _ => shr_toNat x n, fun x y z i hi =>
    ⟨ch_bit x y z hi, parity_bit x y z i, maj_bit x y z i⟩⟩
  simpa using foldl_add32_toNat ws 0

/-- Settles O45: in each range by the branch of `F1` it selects and the quotient of the round index by 20. -/
theorem roundSelectorsByRange : Obligations.RoundSelectorsByRange := by
  intro t x y z ht
  refine ⟨fun h => ?_, fun h1 h2 => ?_, fun h1 h2 => ?_, fun h => ?_⟩
  · exact ⟨f1_choose (by omega) x y z, k1sel_range (by omega) (by omega)⟩
  · exact ⟨f1_parity (by omega) x y z, k1sel_range (by omega) (by omega)⟩
  · exact ⟨f1_majority h1 (by omega) x y z, k1sel_range (by omega) (by omega)⟩
  · exact ⟨f1_parity (by omega) x y z, k1sel_range (by omega) (by omega)⟩

end Sys2Proof.Proofs

/-! The BlockBuilder (41_block_builder.md R160 to R166): the block byte by byte in each of its five cases. -/

namespace Sys2Proof.Machine

/-! ### The bytes of a block -/

/-- The bytes of a payload that is followed by the terminator and zeros. -/
theorem terminated_getD (p : List Byte) (n i : Nat) :
    (p ++ [Config.termByte] ++ List.replicate n 0).getD i 0 =
      if i < p.length then p.getD i 0 else if i = p.length then 0x80 else 0 := by
  obtain hi | rfl | hi := Nat.lt_trichotomy i p.length
  · rw [List.append_assoc, getD_append, if_pos hi, if_pos hi]
  · simp [Config.termByte]
  · rw [getD_append, if_neg (by simp; omega), getD_zeros, if_neg (by omega), if_neg (by omega)]

/-- After 56 bytes comes the length field, most significant byte first (R101). -/
theorem append_lengthField_getD {bs : List Byte} (hl : bs.length = 56) (len : Length) {i : Nat} (h1 : 56 ≤ i)
    (h2 : i < 64) : ((bs ++ lengthField len).getD i 0).toNat = 8 * len.toNat / 2 ^ (8 * (63 - i)) % 256 := by
  rw [getD_append, if_neg (by omega), hl, lengthField_getD _ _ (by omega), show 7 - (i - 56) = 63 - i by omega]

/-- A payload of at most 55 bytes is terminated to 56 bytes, where the length field begins. -/
theorem terminated_length {p : List Byte} (hp : p.length ≤ 55) :
    (p ++ [Config.termByte] ++ List.replicate (55 - p.length) 0).length = 56 := by
  simp only [List.length_append, List.length_replicate, List.length_singleton]
  omega

/-- The first 56 bytes of a block of case L. -/
theorem blockBytes_last_getD_lt {p : List Byte} (hp : p.length ≤ 55) (len : Length) {i : Nat} (hi : i < 56) :
    (blockBytes .last p p.length len).getD i 0 =
      if i < p.length then p.getD i 0 else if i = p.length then 0x80 else 0 := by
  rw [blockBytes, getD_append, if_pos (by rwa [terminated_length hp]), terminated_getD]

/-- The last 8 bytes of a block of case L. -/
theorem blockBytes_last_getD_ge {p : List Byte} (hp : p.length ≤ 55) (len : Length) {i : Nat} (h1 : 56 ≤ i)
    (h2 : i < 64) :
    ((blockBytes .last p p.length len).getD i 0).toNat = 8 * len.toNat / 2 ^ (8 * (63 - i)) % 256 :=
  append_lengthField_getD (terminated_length hp) len h1 h2

/-- A block of case P is one of case L with the empty payload. -/
theorem blockBytes_padWithTerm (p : List Byte) (rem : Nat) (len : Length) :
    blockBytes .padWithTerm p rem len = blockBytes .last [] 0 len := rfl

/-! ### What `BB.NEXT` builds -/

/-- A byte of the block just built, with the remainder by its own name. -/
theorem putBlock_blk_get {s : State} {rem : Nat} (hrem : s.cur.toNat + rem = s.len.toNat) (c : PadCase) (p : List Byte)
    (i : Fin 64) : (putBlock c p s).blk[i] = (blockBytes c p rem s.len).getD i.val 0 := by
  rw [putBlock_blk, show s.len.toNat - s.cur.toNat = rem by omega]
  exact toBlock_get _ _ i.isLt

theorem putBlock_frame (s : State) (c : PadCase) (p : List Byte) :
    onlyWrites [.blk, .cns, .fin, .ph] s (putBlock c p s) :=
  ⟨fun r hr => by cases r <;> simp [Reg.same] at hr ⊢, by simp⟩

/-- In its case and with the payload readable, `BB.NEXT` builds the block of the message bytes from `CUR` on. -/
theorem exec_bbNext_builds {s : State} {c : PadCase} {rem : Nat} (a : Alg) (hrem : s.cur.toNat + rem = s.len.toNat)
    (hc : caseGuard s.len.toNat s.cur.toNat c)
    (hr : ∀ i, i < payloadLength c rem → (Memory.read s.msg (s.cur.toNat + i)).isSome) :
    ∃ p, exec (.bbNext a) s = .next (putBlock c p s) ∧ p.length = payloadLength c rem ∧
      ∀ i, i < payloadLength c rem → some (p.getD i 0) = Memory.read s.msg (s.cur.toNat + i) := by
  obtain rfl : s.len.toNat - s.cur.toNat = rem := by omega
  obtain ⟨p, hp⟩ := readBytes_isSome _ _ _ hr
  obtain ⟨hl, hread⟩ := (readBytes_eq_some_iff _ _ _ _).mp hp
  refine ⟨p, execBbNext_eq (padCase_eq_some_iff.mpr ⟨by omega, hc⟩) hp, hl, fun i hi => ?_⟩
  rw [hread i hi, List.getD_eq_getElem _ _ (by omega), List.getElem?_eq_getElem]

/-- The blocks without payload are built whatever the memory holds. -/
theorem exec_bbNext_padding {s : State} {c : PadCase} (a : Alg) (h : s.cur = s.len)
    (hc : caseGuard s.len.toNat s.cur.toNat c) (h0 : payloadLength c 0 = 0) :
    exec (.bbNext a) s = .next (putBlock c [] s) := by
  obtain ⟨p, he, hl, -⟩ := exec_bbNext_builds (rem := 0) a (by rw [h, Nat.add_zero]) hc (by simp [h0])
  rw [he, List.length_eq_zero_iff.mp (hl.trans h0)]

end Sys2Proof.Machine

namespace Sys2Proof.Proofs

open Sys2Proof.Machine

/-- Settles O23: the block of case F is its payload. -/
theorem fullBlockCopiesSixtyFourBytes : Obligations.FullBlockCopiesSixtyFourBytes := by
  intro s a h hr
  have hrem : s.cur.toNat + (s.len.toNat - s.cur.toNat) = s.len.toNat := by omega
  obtain ⟨p, he, -, hp⟩ := exec_bbNext_builds (c := .full) a hrem (Nat.le_sub_of_add_le' h) hr
  refine ⟨_, he, fun i => ?_, rfl, rfl, rfl, putBlock_frame s _ p⟩
  rw [putBlock_blk_get hrem]
  exact hp i i.isLt

/-- Settles O24: the block of case T is its payload, terminated. -/
theorem tailBlockTakesTheTerminator : Obligations.TailBlockTakesTheTerminator := by
  intro s a rem hrem h1 h2 hr
  have hc : caseGuard s.len.toNat s.cur.toNat .tail := ⟨by omega, by omega⟩
  obtain ⟨p, he, hl, hp⟩ := exec_bbNext_builds (c := .tail) a hrem hc hr
  replace hl : p.length = rem := hl
  refine ⟨_, he, fun i => ?_, ?_, rfl, rfl, putBlock_frame s _ p⟩
  · rw [putBlock_blk_get hrem, blockBytes, terminated_getD, hl]
    refine ⟨fun hi => ?_, fun hi => ?_, fun hi => ?_⟩
    · rw [if_pos hi]
      exact hp i hi
    · rw [if_neg (by omega), if_pos hi]
    · rw [if_neg (by omega), if_neg (by omega)]
  · rw [putBlock_cns, consumed_toNat (padCase_eq_some_iff.mpr ⟨by omega, hc⟩)]
    show s.len.toNat - s.cur.toNat = rem
    omega

/-- Settles O25: the block of case L is its payload, terminated to 56 bytes, and the length field. -/
theorem lastBlockTakesTerminatorAndLength : Obligations.LastBlockTakesTerminatorAndLength := by
  intro s a rem hrem h1 h2 hr
  obtain ⟨p, he, hl, hp⟩ := exec_bbNext_builds (c := .last) a hrem ⟨by omega, by omega⟩ hr
  obtain rfl : p.length = rem := hl
  refine ⟨_, he, fun i => ?_, rfl, rfl, rfl, putBlock_frame s _ p⟩
  rw [putBlock_blk_get hrem]
  refine ⟨fun hi => ?_, fun hi => ?_, fun h3 h4 => ?_, fun hi => blockBytes_last_getD_ge h2 _ hi i.isLt⟩
  · rw [blockBytes_last_getD_lt h2 _ (by omega), if_pos hi]
    exact hp i hi
  · rw [blockBytes_last_getD_lt h2 _ (by omega), if_neg (by omega), if_pos hi]
  · rw [blockBytes_last_getD_lt h2 _ h4, if_neg (by omega), if_neg (by omega)]

/-- Settles O26: the block of case P is one of case L with the empty payload. -/
theorem paddingBlockAfterFullBlocksHasTerminator : Obligations.PaddingBlockAfterFullBlocksHasTerminator := by
  intro s a h hm
  have he := exec_bbNext_padding (c := .padWithTerm) a h ⟨by rw [h], hm⟩ rfl
  have h55 : ([] : List Byte).length ≤ 55 := Nat.zero_le _
  refine ⟨_, he, fun i => ?_, rfl, rfl, rfl, putBlock_frame s _ []⟩
  rw [putBlock_blk_get (rem := 0) (by rw [h, Nat.add_zero]), blockBytes_padWithTerm]
  refine ⟨fun hi => ?_, fun h1 h2 => ?_, fun hi => blockBytes_last_getD_ge h55 _ hi i.isLt⟩
  · exact (blockBytes_last_getD_lt h55 _ (by omega)).trans (if_pos hi)
  · exact (blockBytes_last_getD_lt h55 _ h2).trans (if_neg h1.ne')

/-- Settles O27: the block of case Z is 56 zeros and the length field. -/
theorem paddingBlockAfterTailHasNoTerminator : Obligations.PaddingBlockAfterTailHasNoTerminator := by
  intro s a h hm
  have he := exec_bbNext_padding (c := .padWithoutTerm) a h ⟨by rw [h], hm⟩ rfl
  have h56 : (List.replicate 56 (0 : Byte)).length = 56 := List.length_replicate
  refine ⟨_, he, fun i => ?_, rfl, rfl, rfl, putBlock_frame s _ []⟩
  rw [putBlock_blk_get (rem := 0) (by rw [h, Nat.add_zero]), blockBytes]
  refine ⟨fun hi => ?_, fun hi => append_lengthField_getD h56 _ hi i.isLt⟩
  rw [getD_append, if_pos (by rwa [h56]), getD_zeros]

end Sys2Proof.Proofs

/-! The MessageScheduler (42_message_scheduler.md R180 to R182): the sixteen words of the block, and one step of each
expansion. -/

namespace Sys2Proof.Machine

/-! ### The words `MS.PARSE` writes and leaves -/

theorem parseBlock_w_of_lt (s : State) (i : Nat) (hi : i < 16) : (parseBlock s).w[i] = blockWord s.blk i := by
  simp [parseBlock, hi]

theorem parseBlock_w_of_ge (s : State) (i : Fin 80) (hi : 16 ≤ i.val) : (parseBlock s).w[i] = s.w[i] := by
  simp [parseBlock, Nat.not_lt.mpr hi]

/-! ### One expansion step -/

/-- The new schedule word of SHA-1, where the schedule has all its operands (R181). -/
theorem expandWord1_eq (w : Vector Word 80) (t : Nat) (ht : t < 80) :
    expandWord1 w t = rotl (w[t - 3] ^^^ w[t - 8] ^^^ w[t - 14] ^^^ w[t - 16]) 1 := by
  have sched (k : Nat) : schedWord w (t - k) = w[t - k] := schedWord_eq w _ (by omega)
  simp only [expandWord1, sched]

/-- The new schedule word of SHA-256 as a number: the sum of its four terms, reduced once (R182). -/
theorem expandWord256_toNat (w : Vector Word 80) (t : Nat) (ht : t < 80) :
    (expandWord256 w t).toNat =
      ((ssig1 w[t - 2]).toNat + (w[t - 7]).toNat + (ssig0 w[t - 15]).toNat + (w[t - 16]).toNat) % 2 ^ 32 := by
  have sched (k : Nat) : schedWord w (t - k) = w[t - k] := schedWord_eq w _ (by omega)
  simp only [expandWord256, sched, add32_toNat, Nat.mod_add_mod]

/-- What an expansion step of either algorithm does, up to the formula of its word (R181, R182, R218). -/
theorem exec_expand_writes_one_word (a : Alg) {s : State} {t : Nat} (ht : s.t.toNat = t) (h16 : 16 ≤ t) (h80 : t < 80)
    (hl : t < Config.nw a) :
    ∃ s', exec (microOp a .expand) s = .next s' ∧ s'.w[t] = expandWord a s ∧
      (∀ i : Fin 80, i.val ≠ t → s'.w[i] = s.w[i]) ∧ (t = Config.nw a - 1 → s'.ph = .load ∧ s'.t = s.t) ∧
      (t ≠ Config.nw a - 1 → s'.t.toNat = t + 1 ∧ s'.ph = s.ph) ∧ onlyWrites [.w, .t, .ph] s s' := by
  subst ht
  have he := exec_expand_eq h16 hl
  refine ⟨_, he, ?_, fun i hi => ?_, fun hlast => ?_, fun hlast => ?_, (exec_micro_frame he).1⟩
  · simp
  · simp [hi.symm]
  · simp [← hlast]
  · exact ⟨nextIndex_t_toNat (s.putWord _ _) _ _ hlast (Nat.lt_of_lt_of_le h80 (by decide)), by simp [hlast]⟩

end Sys2Proof.Machine

namespace Sys2Proof.Proofs

open Sys2Proof.Machine

/-- Settles O34: the parsed words are the big-endian words of the block, below index 16 only. -/
theorem parseAssemblesBigEndianWords : Obligations.ParseAssemblesBigEndianWords := by
  intro s a
  have he : exec (microOp a .parse) s = .next (parseBlock s) := by cases a <;> rfl
  refine ⟨_, rfl, fun i => ?_, parseBlock_w_of_ge s, parseBlock_t s, parseBlock_ph s, (exec_micro_frame he).1⟩
  rw [parseBlock_w_of_lt s i i.isLt, blockWord_toNat s.blk i i.isLt]

/-- Settles O35: the expansion step up to its last index 79, with the word of R181. -/
theorem sha1ExpansionComputesOneWord : Obligations.Sha1ExpansionComputesOneWord := by
  intro s t h16 hl ht
  obtain ⟨s', he, hw, hrest⟩ := exec_expand_writes_one_word .sha1 ht h16 hl hl
  refine ⟨s', he, ?_, hrest⟩
  rw [hw, expandWord, ht, expandWord1_eq _ _ hl]

/-- Settles O36: the expansion step up to its last index 63, with the word of R182. -/
theorem sha256ExpansionComputesOneWord : Obligations.Sha256ExpansionComputesOneWord := by
  intro s t h16 hl ht
  obtain ⟨s', he, hw, hrest⟩ := exec_expand_writes_one_word .sha256 ht h16 (by omega) hl
  refine ⟨s', he, ?_, hrest⟩
  rw [hw, expandWord, ht, expandWord256_toNat _ _ (by omega)]

end Sys2Proof.Proofs

/-! The Compressor (43_compressor.md R192, R193): one round of each algorithm. -/

namespace Sys2Proof.Machine

/-! ### The sums of a round

Each nested addition reduces modulo 2^32; in a sum of several terms the inner reductions drop out. -/

/-- The new `a` of a SHA-1 round as a number: the sum of its five terms, reduced once (R192). -/
theorem round1_a_toNat (t : Nat) (wt : Word) (v : Vector Word 8) :
    ((round1 t wt v)[0]).toNat =
      ((rotl v[0] 5).toNat + (f1 t v[1] v[2] v[3]).toNat + (v[4]).toNat + (k1sel t).toNat + wt.toNat) % 2 ^ 32 := by
  simp [round1, add32_toNat]

/-- The new `a` of a SHA-256 round as a number: T1 + T2, reduced once (R193). -/
theorem round256_a_toNat (t : Nat) (wt : Word) (v : Vector Word 8) :
    ((round256 t wt v)[0]).toNat =
      ((v[7]).toNat + (bsig1 v[4]).toNat + (ch v[4] v[5] v[6]).toNat + (const k256 t).toNat + wt.toNat +
        ((bsig0 v[0]).toNat + (maj v[0] v[1] v[2]).toNat)) % 2 ^ 32 := by
  simp [round256, add32_toNat]

/-- The new `e` of a SHA-256 round as a number: d + T1, reduced once (R193). -/
theorem round256_e_toNat (t : Nat) (wt : Word) (v : Vector Word 8) :
    ((round256 t wt v)[4]).toNat =
      ((v[3]).toNat + ((v[7]).toNat + (bsig1 v[4]).toNat + (ch v[4] v[5] v[6]).toNat + (const k256 t).toNat +
        wt.toNat)) % 2 ^ 32 := by
  simp [round256, add32_toNat]

/-! ### One round step -/

/-- What a round step of either algorithm does, up to the formulas of its round (R192, R193, R218). -/
theorem exec_round_updates_vars (a : Alg) {s : State} {t : Nat} (ht : s.t.toNat = t) (hl : t < Config.nr a) :
    ∃ s', exec (microOp a .round) s = .next s' ∧ s'.v = roundVars a s ∧
      (t = Config.nr a - 1 → s'.ph = .fold ∧ s'.t = s.t) ∧
      (t ≠ Config.nr a - 1 → s'.t.toNat = t + 1 ∧ s'.ph = s.ph) ∧ onlyWrites [.v, .t, .ph] s s' := by
  subst ht
  have he := exec_round_eq hl
  have h80 : Config.nr a ≤ 80 := by cases a <;> decide
  refine ⟨_, he, by simp, fun hlast => ?_, fun hlast => ?_, (exec_micro_frame he).1⟩
  · simp [← hlast]
  · exact ⟨nextIndex_t_toNat (s.putVars _) _ _ hlast (show s.t.toNat < 127 by omega), by simp [hlast]⟩

end Sys2Proof.Machine

namespace Sys2Proof.Proofs

open Sys2Proof.Machine

/-- Settles O39: the round step up to its last index 79, with the sum of R192; the other variables move by definition
of the round. -/
theorem sha1RoundUpdatesTheVariables : Obligations.Sha1RoundUpdatesTheVariables := by
  intro s t hl ht
  obtain ⟨s', he, hv, hrest⟩ := exec_round_updates_vars .sha1 ht hl
  rw [roundVars, ht, schedWord_eq _ _ hl] at hv
  refine ⟨s', he, ?_⟩
  rw [hv]
  exact ⟨round1_a_toNat t s.w[t] s.v, rfl, rfl, rfl, rfl, rfl, rfl, rfl, hrest⟩

/-- Settles O40: the round step up to its last index 63, with the two sums of R193; the other variables move by
definition of the round. -/
theorem sha256RoundUpdatesTheVariables : Obligations.Sha256RoundUpdatesTheVariables := by
  intro s t hl ht
  obtain ⟨s', he, hv, hrest⟩ := exec_round_updates_vars .sha256 ht hl
  rw [roundVars, ht, schedWord_eq _ _ (by omega)] at hv
  refine ⟨s', _, _, he, rfl, rfl, ?_⟩
  rw [hv]
  exact ⟨round256_a_toNat t s.w[t] s.v, rfl, rfl, rfl, round256_e_toNat t s.w[t] s.v, rfl, rfl, rfl, hrest⟩

end Sys2Proof.Proofs

/-! The Driver (44_driver.md R210 to R216, R225): the turns in which the sequencer has no step, the acceptance of a
command, and the words of `H` at the start of an operation and after a fold. -/

namespace Sys2Proof.Machine

/-! ### Turns that run no operation -/

/-- Of the turns that run no operation only a host write changes `LEN`, unless reset is asserted. -/
theorem hostTurn_len {s : State} (hr : ¬ s.assertsReset) (hw : ¬ ∃ reg v rest, s.turns = .write reg v :: rest) :
    (hostTurn s).len = s.len := by
  cases ht : s.turns with
  | nil => simp [hostTurn, ht]
  | cons x rest =>
    cases x with
    | write reg v => exact absurd ⟨reg, v, rest, ht⟩ hw
    | assertReset => exact absurd ⟨rest, ht⟩ hr
    | wait => simp only [hostTurn, ht]; split <;> simp
    | _ => simp [hostTurn, ht]

/-- A turn that runs no operation changes no register, unless it is a host write or asserts reset. -/
theorem hostTurn_same {s : State} (hr : ¬ s.assertsReset) (hw : ¬ ∃ reg v rest, s.turns = .write reg v :: rest)
    (r : Reg) : r.same s (hostTurn s) := by
  obtain ⟨hh, hv, hw', hblk, hcur, hcns, hfin, ht, halg, hst, hph⟩ := hostTurn_frame s hr
  have hlen := hostTurn_len hr hw
  cases r <;> assumption

/-- On the sequencer's turn reset is not asserted next. -/
theorem not_assertsReset_of_sequencerTurn {s : State} (h : s.sequencerTurn) : ¬ s.assertsReset := by
  rintro ⟨r, ht⟩
  obtain ⟨-, hs | ⟨_, hs⟩ | ⟨_, hs⟩⟩ := h <;> simp [ht] at hs

/-- On the sequencer's turn no host write is next. -/
theorem not_write_of_sequencerTurn {s : State} (h : s.sequencerTurn) :
    ¬ ∃ reg v rest, s.turns = .write reg v :: rest := by
  rintro ⟨reg, v, rest, ht⟩
  obtain ⟨-, hs | ⟨_, hs⟩ | ⟨_, hs⟩⟩ := h <;> simp [ht] at hs

/-- On its turn in IDLE and DONE the sequencer has no step (R225). -/
theorem step_sequencer_idle {s : State} (h : s.sequencerTurn) (hp : s.st ≠ .processing) :
    step s = .next (hostTurn s) := by
  simp [step, fetch_idle h hp]

/-! ### Commands -/

/-- A command is accepted in IDLE and DONE (R212). -/
theorem hashCommand_accepted {s : State} (hp : s.st ≠ .processing) (a : Alg) :
    hashCommand a s = .next (s.accept a) := by
  simp [hashCommand, hp]

/-- A command is ignored in PROCESSING (R212). -/
theorem hashCommand_ignored {s : State} (hp : s.st = .processing) (a : Alg) : hashCommand a s = .next s := by
  simp [hashCommand, hp]

/-! ### The words of `H` -/

theorem initDriver_h_get (iv : List Word) (s : State) (i : Fin 8) :
    (initDriver iv s).h[i] = if i.val < iv.length then const iv i.val else 0 := by
  simp [initDriver]

theorem foldHash_h_get (n : Nat) (s : State) (i : Fin 8) :
    (foldHash n s).h[i] = if i.val < n then add32 s.h[i] s.v[i] else s.h[i] := by
  simp [foldHash]

/-- What the start of an operation does under either algorithm (R213, R214). -/
theorem exec_init_starts_hash (a : Alg) (s : State) :
    ∃ s', exec (microOp a .init) s = .next s' ∧
      (∀ i : Fin 8, s'.h[i] = if i.val < (initTable a).length then const (initTable a) i.val else 0) ∧
      s'.cur = 0 ∧ s'.fin = false ∧ s'.ph = .block ∧ onlyWrites [.h, .cur, .fin, .ph] s s' := by
  have he : exec (microOp a .init) s = .next (initDriver (initTable a) s) := by cases a <;> rfl
  exact ⟨_, he, initDriver_h_get _ s, by simp, by simp, by simp, (exec_micro_frame he).1⟩

/-- What the fold does under either algorithm: it adds the words that hold the digest (R215, R216). -/
theorem exec_fold_adds_words (a : Alg) (s : State) :
    ∃ s', exec (microOp a .fold) s = .next s' ∧
      (∀ i : Fin 8, i.val < Config.nh a → (s'.h[i]).toNat = ((s.h[i]).toNat + (s.v[i]).toNat) % 2 ^ 32) ∧
      (∀ i : Fin 8, Config.nh a ≤ i.val → s'.h[i] = s.h[i]) ∧ s'.ph = .next ∧ onlyWrites [.h, .ph] s s' := by
  have he : exec (microOp a .fold) s = .next (foldHash (Config.nh a) s) := by cases a <;> rfl
  refine ⟨_, he, fun i hi => ?_, fun i hi => ?_, by simp, (exec_micro_frame he).1⟩
  · rw [foldHash_h_get, if_pos hi, add32_toNat]
  · rw [foldHash_h_get, if_neg (Nat.not_lt.mpr hi)]

end Sys2Proof.Machine

namespace Sys2Proof.Proofs

open Sys2Proof.Machine

/-- Settles O5: in IDLE and DONE a step is a command written by the host or a turn that runs no operation, and of these
turns only a host write or reset changes a register. -/
theorem sequencerStepsExactlyWhileProcessing : Obligations.SequencerStepsExactlyWhileProcessing := by
  refine ⟨fun s => step_sequencer, fun s hs hp => ?_, fun s s' hp h hchanged => ?_⟩
  · exact ⟨_, step_sequencer_idle hs hp,
      hostTurn_same (not_assertsReset_of_sequencerTurn hs) (not_write_of_sequencerTurn hs)⟩
  · rcases step_cases s with ⟨-, hp', -⟩ | ⟨a, ⟨-, -, rest, ht⟩, -⟩ | ⟨-, ⟨w, rest, ht⟩, -⟩ | ⟨-, -, -, hs⟩
    · exact absurd hp' hp
    · exact .inr ⟨_, _, rest, ht⟩
    · exact .inr ⟨_, w, rest, ht⟩
    · obtain rfl : hostTurn s = s' := by simpa [hs] using h
      obtain ⟨r, hr⟩ := hchanged
      by_contra hno
      obtain ⟨hreset, hwrite⟩ := not_or.mp hno
      exact hr (hostTurn_same hreset hwrite r)

/-- Settles O17, from the two answers of `hashCommand`. -/
theorem commandIsAcceptedUnlessProcessing : Obligations.CommandIsAcceptedUnlessProcessing := by
  refine fun s => ⟨fun hp => ⟨?_, ?_⟩, fun hp => ⟨hashCommand_ignored hp _, hashCommand_ignored hp _⟩⟩
  · exact ⟨_, hashCommand_accepted hp _, rfl, rfl, rfl, accept_frame s _⟩
  · exact ⟨_, hashCommand_accepted hp _, rfl, rfl, rfl, accept_frame s _⟩

/-- Settles O18: `IV1` has five words. -/
theorem drvInitSha1StartsTheHash : Obligations.DrvInitSha1StartsTheHash :=
  exec_init_starts_hash .sha1

/-- Settles O19: `IV256` has a word for each of the eight of `H`. -/
theorem drvInitSha256StartsTheHash : Obligations.DrvInitSha256StartsTheHash := by
  intro s
  obtain ⟨s', he, hh, hrest⟩ := exec_init_starts_hash .sha256 s
  exact ⟨s', he, fun i => (hh i).trans (if_pos i.isLt), hrest⟩

/-- Settles O20: the digest of SHA-1 has five words. -/
theorem drvFoldSha1AddsFiveWords : Obligations.DrvFoldSha1AddsFiveWords :=
  exec_fold_adds_words .sha1

/-- Settles O21: the digest of SHA-256 has eight words, so no word of `H` is left over. -/
theorem drvFoldSha256AddsEightWords : Obligations.DrvFoldSha256AddsEightWords := by
  intro s
  obtain ⟨s', he, hsum, -, hrest⟩ := exec_fold_adds_words .sha256 s
  exact ⟨s', he, fun i => hsum i i.isLt, hrest⟩

end Sys2Proof.Proofs

/-! The decoder as the inverse of the encoder (30_encoding.md R90 to R96), and the step that runs what it decodes. -/

namespace Sys2Proof.Machine

/-- Decoding undoes encoding. -/
theorem decode_encode (i : Instr) : decode (encode i) = .ok i := by
  cases i with
  | bbNext a => exact (Laws.RoundTrip.bbNext a).2
  | msParse a => exact (Laws.RoundTrip.msParse a).2
  | drvNext a => exact (Laws.RoundTrip.drvNext a).2
  | _ => rfl

/-- The decoder answers an instruction for the two command words alone (R92 to R94). -/
theorem decode_command_ok {w : Word} {i : Instr} (h : decode (.command w) = .ok i) : .command w = encode i := by
  by_cases h1 : w = 0x00000001
  · subst h1; cases h; rfl
  · by_cases h3 : w = 0x00000003
    · subst h3; cases h; rfl
    · obtain ⟨e, he⟩ := decode_other w h1 h3
      rw [he] at h; cases h

/-- A select code is the code `ALG ‖ PH` of its two fields (R95). -/
theorem selectCode_fields (u : BitVec 4) : selectCode (selectAlg u) (selectPhase u) = u := by
  decide +revert

/-- The code of R96 of a micro-operation is `ALG ‖ PH`. -/
theorem encode_microOp (a : Alg) (p : Phase) : encode (microOp a p) = .select (selectCode a p) := by
  cases a <;> cases p <;> rfl

/-- Encoding undoes decoding: no bit of a code is dropped. -/
theorem encode_of_decode {c : Code} {i : Instr} (h : decode c = .ok i) : c = encode i := by
  cases c with
  | command w => exact decode_command_ok h
  | select u =>
    obtain rfl : decodeSelect u = i := by simpa [decode] using h
    rw [decodeSelect, encode_microOp, selectCode_fields]

end Sys2Proof.Machine

namespace Sys2Proof.Proofs

open Sys2Proof.Machine

/-- Settles O2: each of decoder and encoder undoes the other. -/
theorem decodeIsTheInverseOfEncode : Obligations.DecodeIsTheInverseOfEncode := by
  refine fun c i => ⟨encode_of_decode, ?_⟩
  rintro rfl
  exact decode_encode i

/-- Settles O4: the branch of `step` for a fetched code that decodes. -/
theorem stepRunsTheDecodedInstruction : Obligations.StepRunsTheDecodedInstruction := by
  intro s c i hf hd _
  simp only [step, hf, hd]

/-- Settles O6: the command words decode to the commands. -/
theorem commandWriteRunsTheCommand : Obligations.CommandWriteRunsTheCommand := by
  refine fun s rest hr => ⟨fun ht => ?_, fun ht => ?_⟩
  · rw [step_command hr ht decode_sha1, popTurn_eq ht]
  · rw [step_command hr ht decode_sha256, popTurn_eq ht]

end Sys2Proof.Proofs

/-! The rotates and the sigma functions bit by bit (40_constants_wordops.md R121, R122, R129 to R132), and the
arithmetic of the tables (R133 to R136). -/

namespace Sys2Proof.Machine

/-- A bit of an upper-case sigma function: the three bits that its rotates bring there. -/
theorem parity_rotr_bit (x : Word) {p q r i : Nat} (hp : 1 ≤ p ∧ p ≤ 31) (hq : 1 ≤ q ∧ q ≤ 31) (hr : 1 ≤ r ∧ r ≤ 31)
    (hi : i < 32) :
    (parity (rotr x p) (rotr x q) (rotr x r)).getLsbD i =
      (x.getLsbD ((i + p) % 32) ^^ x.getLsbD ((i + q) % 32) ^^ x.getLsbD ((i + r) % 32)) := by
  rw [parity_bit, rotr_bit x p i hp.1 hp.2 hi, rotr_bit x q i hq.1 hq.2 hi, rotr_bit x r i hr.1 hr.2 hi]

/-- A bit of a lower-case sigma function: the bits that its rotates bring there, and that of its shift, if any. -/
theorem parity_shr_bit (x : Word) {p q i : Nat} (r : Nat) (hp : 1 ≤ p ∧ p ≤ 31) (hq : 1 ≤ q ∧ q ≤ 31) (hi : i < 32) :
    (parity (rotr x p) (rotr x q) (shr x r)).getLsbD i =
      (x.getLsbD ((i + p) % 32) ^^ x.getLsbD ((i + q) % 32) ^^ (decide (i + r < 32) && x.getLsbD (i + r))) := by
  rw [parity_bit, rotr_bit x p i hp.1 hp.2 hi, rotr_bit x q i hq.1 hq.2 hi, shr_bit]

/-- Trial division by the numbers from 2 to 17. -/
def noSmallDivisor (n : Nat) : Bool := decide (2 ≤ n) && decide (∀ m : Nat, m < 18 → 2 ≤ m → m < n → ¬ m ∣ n)

/-- Trial division by 2 to 17 finds the primes below 324, which is 18 x 18. -/
theorem prime_iff_noSmallDivisor {n : Nat} (hn : n < 324) : Nat.Prime n ↔ noSmallDivisor n = true := by
  rw [noSmallDivisor, Bool.and_eq_true, decide_eq_true_iff, decide_eq_true_iff, Nat.prime_def_le_sqrt]
  refine and_congr_right fun h2 => ⟨fun h m hm h2m hmn hd => ?_, fun h m h2m hsq => ?_⟩
  · obtain ⟨k, rfl⟩ := hd
    have hk : 2 ≤ k := by
      by_contra hk
      interval_cases k <;> omega
    rcases Nat.le_total m k with hle | hle
    · exact h m h2m (Nat.le_sqrt.mpr (Nat.mul_le_mul_left m hle)) (Nat.dvd_mul_right m k)
    · exact h k hk (Nat.le_sqrt.mpr (Nat.mul_le_mul_right k hle)) (Nat.dvd_mul_left k m)
  · have hm : m * m ≤ n := Nat.le_sqrt.mp hsq
    exact h m (by nlinarith) h2m (by nlinarith)

/-- The primes whose cube roots give `K256` (R136). -/
def primesBelow312 : List Nat :=
  [2, 3, 5, 7, 11, 13, 17, 19, 23, 29, 31, 37, 41, 43, 47, 53, 59, 61, 67, 71, 73, 79, 83, 89, 97, 101, 103, 107, 109,
    113, 127, 131, 137, 139, 149, 151, 157, 163, 167, 173, 179, 181, 191, 193, 197, 199, 211, 223, 227, 229, 233, 239,
    241, 251, 257, 263, 269, 271, 277, 281, 283, 293, 307, 311]

theorem filter_prime_range : (List.range 312).filter Nat.Prime = primesBelow312 := by
  have h : ∀ n ∈ List.range 312, decide (Nat.Prime n) = noSmallDivisor n := fun n hn => by
    have hn : n < 312 := List.mem_range.mp hn
    rw [Bool.eq_iff_iff, decide_eq_true_iff, prime_iff_noSmallDivisor (by omega)]
  rw [List.filter_congr h]
  decide

/-- Each word of `K256` is the fraction of the cube root of its prime, by the bounds of R136. -/
theorem k256_cube_roots : ∀ p ∈ k256.zip primesBelow312, ∃ r < 7,
    (r * 2 ^ 32 + p.1.toNat) ^ 3 ≤ p.2 * 2 ^ 96 ∧ p.2 * 2 ^ 96 < (r * 2 ^ 32 + p.1.toNat + 1) ^ 3 := by
  decide

end Sys2Proof.Machine

namespace Sys2Proof.Proofs

open Sys2Proof.Machine

/-- Settles O43, from the bits of the two rotates: the left rotate is read at the place the bit moves to. -/
theorem rotatesMoveEveryBit : Obligations.RotatesMoveEveryBit := by
  refine fun x n h1 h2 => ⟨fun i hi => ?_, fun i hi => rotr_bit x n i h1 h2 hi, rfl⟩
  rw [rotl_bit x n _ h1 h2 (Nat.mod_lt _ (by decide)), show ((i + n) % 32 + (32 - n)) % 32 = i by omega]

/-- Settles O46: each sigma function is the parity of three rotates, or of two rotates and a shift. -/
theorem sigmaFunctionsBitByBit : Obligations.SigmaFunctionsBitByBit := fun x _ hi =>
  ⟨parity_rotr_bit x (by decide) (by decide) (by decide) hi, parity_rotr_bit x (by decide) (by decide) (by decide) hi,
    parity_shr_bit x 3 (by decide) (by decide) hi, parity_shr_bit x 10 (by decide) (by decide) hi⟩

/-- Settles O47: the tables are closed data; the primes below 312 are found by trial division. -/
theorem tablesMeetTheirArithmeticChecks : Obligations.TablesMeetTheirArithmeticChecks := by
  refine ⟨by decide, rfl, rfl, rfl, by decide, by decide, ?_⟩
  rw [filter_prime_range]
  exact k256_cube_roots

end Sys2Proof.Proofs

/-! Reset and the host's view (10_state.md R44 to R48, 70_reset_and_hazards.md R280, R282): the turns of the reset
input, the turns while it is asserted, and what a read can depend on. -/

namespace Sys2Proof.Machine

/-- The turn that asserts reset, in whatever state (R280). -/
theorem step_assertReset {s : State} {rest : List Turn} (h : s.turns = .assertReset :: rest) :
    step s = .next (State.enterReset { s with turns := rest }) := by
  have hf : fetch s = none := by simp [fetch, h]
  simp [step, hf, hostTurn, h, popTurn_eq h]

/-- The turn that releases reset (R280). -/
theorem step_releaseReset {s : State} {rest : List Turn} (h : s.turns = .releaseReset :: rest) :
    step s = .next { s with turns := rest, inReset := false } := by
  have hf : fetch s = none := by simp [fetch, h]
  simp [step, hf, hostTurn, h, popTurn_eq h]

/-- The host's side of the state holds no register. -/
theorem same_withHostSide (r : Reg) (s : State) (m : Memory) (ts : List Turn) (d : Word) :
    r.same s (s.withHostSide m ts d) := by
  cases r <;> rfl

theorem same_popTurn (r : Reg) (s : State) : r.same s s.popTurn := same_withHostSide r s s.msg s.turns.tail s.rdata

theorem readCsr_inReset {s : State} (hr : s.inReset = true) (reg : Nat) : readCsr s reg = 0 := if_pos hr

/-- While reset is asserted a turn of the sequencer, a WAIT, a host write or no turn at most uses up the turn (R280). -/
theorem hostTurn_inReset {s : State} {rest : List Turn} (hr : s.inReset = true)
    (h : s.turns = [] ∨ s.turns = .seq :: rest ∨ s.turns = .wait :: rest ∨ ∃ reg v, s.turns = .write reg v :: rest) :
    hostTurn s = s ∨ hostTurn s = s.popTurn := by
  obtain h | h | h | ⟨reg, v, h⟩ := h
  · exact .inl (by simp [hostTurn, h])
  · exact .inr (by simp [hostTurn, h])
  · exact .inl (by simp [hostTurn, h, State.seesDone, hr])
  · exact .inr (by simp [hostTurn, h, writeCsr, hr])

/-- The step that accepts a command (R210 to R212). -/
theorem step_acceptsCommand {s : State} {a : Alg} (h : s.acceptsCommand a) : step s = .next (s.popTurn.accept a) := by
  obtain ⟨hr, hp, rest, ht⟩ := h
  cases a with
  | sha1 => exact (step_command hr ht decode_sha1).trans (hashCommand_accepted (s := s.popTurn) hp .sha1)
  | sha256 => exact (step_command hr ht decode_sha256).trans (hashCommand_accepted (s := s.popTurn) hp .sha256)

theorem statusWord_congr {s₁ s₂ : State} (hst : s₁.st = s₂.st) (ha : s₁.alg = s₂.alg) :
    statusWord s₁ = statusWord s₂ := by
  simp only [statusWord, State.busy, State.done, hst, ha]

end Sys2Proof.Machine

namespace Sys2Proof.Proofs

open Sys2Proof.Machine

/-- Settles O8: the turn that asserts reset and the turn that releases it, one after the other. -/
theorem assertedResetAbandonsTheOperation : Obligations.AssertedResetAbandonsTheOperation := by
  intro s rest ht
  refine ⟨_, step_assertReset ht, rfl, rfl, rfl, rfl, rfl, rfl, fun _ => rfl, ?_⟩
  rintro rest' rfl
  exact ⟨_, step_releaseReset rfl, rfl, rfl, rfl, rfl, rfl, rfl, fun _ => rfl, readCsr_of_reset_values rfl rfl rfl⟩

/-- Settles O9: under reset no turn fetches an operation. -/
theorem assertedResetHoldsTheInstance : Obligations.AssertedResetHoldsTheInstance := by
  intro s hr
  refine ⟨readCsr_inReset hr, fun rest => ⟨fun ht => ⟨_, step_inReset hr, ?_⟩, fun reg ht => ?_⟩⟩
  · obtain h | h := hostTurn_inReset hr ht
    · rw [h]; exact ⟨hr, rfl, fun r => r.same_refl s⟩
    · rw [h]; exact ⟨hr, rfl, fun r => same_popTurn r s⟩
  · exact ⟨_, step_read ht, hr, readCsr_inReset hr reg, fun r => same_withHostSide r s s.msg rest (readCsr s reg)⟩

/-- Settles O15: `done` and bit 1 of `STATUS` are both computed from `ST`, which reset and acceptance set. -/
theorem doneOutputFollowsTheDriver : Obligations.DoneOutputFollowsTheDriver := by
  intro s
  refine ⟨by rw [done_eq, decide_eq_true_iff], fun hr => ?_, fun hinv hr => ?_, fun a ha => ?_⟩
  · rw [readCsr_status hr, statusWord_bit, if_neg (by decide), if_pos rfl]
  · rw [done_eq, hinv.reset hr]; rfl
  · exact ⟨_, step_acceptsCommand ha, rfl⟩

/-- Settles O16: each branch of the read is a function of the registers named. -/
theorem hiddenRegistersAreNotHostVisible : Obligations.HiddenRegistersAreNotHostVisible := by
  intro s₁ s₂ reg hr hst ha hl hh
  unfold readCsr
  rw [hr, statusWord_congr hst ha, hl, hst]
  by_cases hd : s₂.st = .done
  · rw [hh (hst.trans hd)]
  · rw [if_neg hd, if_neg hd]

/-- Settles O48: memory is empty and the Driver in IDLE, so the other clauses ask nothing. -/
theorem resetMeetsTheInvariant : Obligations.ResetMeetsTheInvariant where
  memory := reset_memory_wf
  reset _ := rfl
  position h := by cases h
  upperHash h := by obtain ⟨h, -⟩ | h := h <;> cases h

end Sys2Proof.Proofs

/-! The micro-operations that read an index or a cursor (41_block_builder.md R161 to R168, R172;
42_message_scheduler.md; 43_compressor.md R190 to R193; 44_driver.md R217): where they are refused, what `BB.NEXT` reads, and the words that
`CP.LOAD` and `DRV.NEXT` leave. -/

namespace Sys2Proof.Machine

/-! ### Refusals -/

/-- `BB.NEXT` is refused exactly where it has no case (R167). -/
theorem execBbNext_refused_iff (s : State) :
    execBbNext s = .refused .cursorOutsideInvariant ↔ padCase s.len.toNat s.cur.toNat = none := by
  unfold execBbNext
  cases padCase s.len.toNat s.cur.toNat with
  | none => simp
  | some c => dsimp only; split <;> simp

theorem expandStep_refused_iff (last : Nat) (word : Vector Word 80 → Nat → Word) (s : State) :
    expandStep last word s = .refused .indexOutsideRange ↔ ¬ (16 ≤ s.t.toNat ∧ s.t.toNat ≤ last) := by
  unfold expandStep
  split <;> simp [*]

theorem roundStep_refused_iff (last : Nat) (round : Nat → Word → Vector Word 8 → Vector Word 8) (s : State) :
    roundStep last round s = .refused .indexOutsideRange ↔ ¬ s.t.toNat ≤ last := by
  unfold roundStep
  split <;> simp [*]

/-! ### The payload of a block -/

/-- An offset of the message within 64 bytes of the cursor belongs to the payload (R168). -/
theorem payload_contains {l c k : Nat} (hk : c + k < l) (h64 : k < 64) :
    ∃ p, padCase l c = some p ∧ k < payloadLength p (l - c) := by
  cases hp : padCase l c with
  | none => rcases (padCase_eq_none_iff l c).mp hp with h | ⟨h, -⟩ <;> omega
  | some p =>
    obtain ⟨-, hg⟩ := padCase_eq_some hp
    refine ⟨p, rfl, ?_⟩
    cases p <;> simp only [caseGuard] at hg <;> simp only [payloadLength] <;> omega

/-- `BB.NEXT` waits while a byte of the message within 64 bytes of the cursor is refused (R71, U4). -/
theorem execBbNext_waits {s : State} {k : Nat} (hk : s.cur.toNat + k < s.len.toNat) (h64 : k < 64)
    (hn : Memory.read s.msg (s.cur.toNat + k) = none) : execBbNext s = .next s := by
  obtain ⟨c, hc, hkp⟩ := payload_contains hk h64
  exact execBbNext_stuck hc (readBytes_eq_none hkp hn)

/-- The last block is the one that consumes nothing (R172). -/
theorem finFlag_iff_consumed_zero {l c : Nat} {k : PadCase} (h : padCase l c = some k) :
    finFlag k = true ↔ (consumed k (l - c)).toNat = 0 := by
  obtain ⟨-, hg⟩ := padCase_eq_some h
  rw [consumed_toNat h]
  cases k with
  | tail =>
    have h56 : 56 ≤ l - c := hg.1
    simp only [finFlag, Bool.false_eq_true, false_iff]
    omega
  | _ => simp [finFlag]

/-! ### The words of `V` after `CP.LOAD` and of `H` after `DRV.NEXT` -/

theorem loadVars_v_get (n : Nat) (s : State) (i : Fin 8) :
    (loadVars n s).v[i] = if i.val < n then s.h[i] else s.v[i] := by
  simp [loadVars]

/-- What `CP.LOAD` does under either algorithm (R190, R191). -/
theorem exec_load_copies_hash (a : Alg) (s : State) :
    ∃ s', exec (microOp a .load) s = .next s' ∧
      (∀ i : Fin 8, s'.v[i] = if i.val < Config.nh a then s.h[i] else s.v[i]) ∧ s'.t = 0 ∧ s'.ph = .round ∧
      onlyWrites [.v, .t, .ph] s s' := by
  have he : exec (microOp a .load) s = .next (loadVars (Config.nh a) s) := by cases a <;> rfl
  exact ⟨_, he, loadVars_v_get _ s, rfl, rfl, (exec_micro_frame he).1⟩

/-- The words of `H` past the digest of SHA-1 are as they were when the operation ends, message changed or not. -/
theorem finish_h_upper (s : State) (ha : s.alg = .sha1) (i : Nat) (h5 : 5 ≤ i) (h8 : i < 8) :
    s.finish.h[i] = s.h[i] := by
  simp only [finish_h]
  split
  · exact freeDigest_upper s ha i h5 h8
  · rfl

end Sys2Proof.Machine

namespace Sys2Proof.Proofs

open Sys2Proof.Machine

/-- Settles O22, by the value of `FIN`. -/
theorem drvNextAdvancesTheCursorAndLoops : Obligations.DrvNextAdvancesTheCursorAndLoops := by
  intro s a
  have hframe : ∀ s', exec (.drvNext a) s = .next s' → onlyWrites [.h, .cur, .st, .ph] s s' := fun s' he =>
    (exec_micro_frame (a := a) (p := .next) (by cases a <;> exact he)).1
  cases hf : s.fin with
  | true =>
    have he : exec (.drvNext a) s = .next (advanceCursor s).finish := by simp [exec, execDrvNext, hf]
    refine ⟨_, he, ?_, fun _ => ⟨by simp, by simp⟩, fun h => (by cases h), hframe _ he, ?_, fun ha => ?_⟩
    · rw [finish_cur, advanceCursor_toNat]
    · cases hm : s.msgChanged with
      | true => exact .inl ⟨rfl, rfl⟩
      | false => exact .inr (by simp [hm])
    · have hup := finish_h_upper (advanceCursor s) ha
      exact ⟨hup 5 (by decide) (by decide), hup 6 (by decide) (by decide), hup 7 (by decide) (by decide)⟩
  | false =>
    have he : exec (.drvNext a) s = .next { advanceCursor s with ph := .block } := by simp [exec, execDrvNext, hf]
    exact ⟨_, he, advanceCursor_toNat s, fun h => (by cases h), fun _ => ⟨rfl, rfl⟩, hframe _ he, .inr rfl,
      fun _ => ⟨rfl, rfl, rfl⟩⟩

/-- Settles O28, from where the BlockBuilder has no case. -/
theorem blockBuilderRefusesExactlyOutsideTheInvariant : Obligations.BlockBuilderRefusesExactlyOutsideTheInvariant := by
  intro s a
  rw [← BitVec.toNat_inj, ← padCase_eq_none_iff]
  exact execBbNext_refused_iff s

/-- Settles O29: the refused byte belongs to the payload; the step runs the same meaning with the turn used up. -/
theorem unavailableByteLeavesTheBlockBuilderStuck : Obligations.UnavailableByteLeavesTheBlockBuilderStuck := by
  intro s a k hk h64 hn
  refine ⟨execBbNext_waits hk h64 hn, fun hs hp hph => ?_⟩
  have hm : exec (microOp s.alg .block) s.consumeTurn = execBbNext s.consumeTurn := by cases s.alg <;> rfl
  rw [step_sequencer hs hp, hph, hm]
  exact execBbNext_waits (k := k) (by simpa using hk) h64 (by simpa using hn)

/-- Settles O30: the payload ends at or below `LEN`, and memories that agree on it read the same payload. -/
theorem blockBuilderReadsOnlyItsPayload : Obligations.BlockBuilderReadsOnlyItsPayload := by
  intro s s' a m c hc
  refine ⟨payload_le hc, fun hm he => ?_⟩
  have hread := readBytes_congr hm
  obtain ⟨c', hc', h⟩ := exec_block (a := a) (by cases a <;> exact he)
  obtain rfl : c' = c := by simpa [hc'] using hc
  obtain ⟨p, hp, rfl⟩ | ⟨hn, rfl⟩ := h
  · exact execBbNext_eq (s := { s with msg := m }) hc (hread.trans hp)
  · exact execBbNext_stuck (s := { s' with msg := m }) hc (hread.trans hn)

/-- Settles O31, from `FIN` and `CNS` of the case that was built. -/
theorem finIsSetExactlyWhenNothingIsConsumed : Obligations.FinIsSetExactlyWhenNothingIsConsumed := by
  intro s s' a hr he
  obtain ⟨c, p, hc, -, rfl⟩ := exec_block_readable (a := a) hr (by cases a <;> exact he)
  rw [putBlock_fin, putBlock_cns, finFlag_iff_consumed_zero hc, ← BitVec.toNat_inj]
  rfl

/-- Settles O38: five words under SHA-1, every word of `V` under SHA-256. -/
theorem loadCopiesTheHashState : Obligations.LoadCopiesTheHashState := by
  refine fun s => ⟨exec_load_copies_hash .sha1 s, ?_⟩
  obtain ⟨s', he, hv, hrest⟩ := exec_load_copies_hash .sha256 s
  exact ⟨s', he, fun i => (hv i).trans (if_pos i.isLt), hrest⟩

/-- Settles O41, from the guards of the expansion and of the round. -/
theorem indexOutsideItsRangeIsRefused : Obligations.IndexOutsideItsRangeIsRefused := fun s =>
  ⟨expandStep_refused_iff 79 _ s, expandStep_refused_iff 63 _ s, roundStep_refused_iff 79 _ s,
    roundStep_refused_iff 63 _ s⟩

end Sys2Proof.Proofs

/-! What each step can change (10_state.md R20, R32, R33; 20_memory.md R64, R73; 44_driver.md R219): every step is one
of four kinds, of which only a micro-operation writes a hidden register and only a store writes memory. -/

namespace Sys2Proof.Machine

/-! ### The kinds of step -/

theorem not_assertsReset_of_write {s : State} {reg : Nat} {v : Word} {rest : List Turn}
    (h : s.turns = .write reg v :: rest) : ¬ s.assertsReset := by
  rintro ⟨r, hr⟩
  simp [h] at hr

theorem not_assertsReset_of_accepts {s : State} {a : Alg} (h : s.acceptsCommand a) : ¬ s.assertsReset := by
  obtain ⟨-, -, rest, ht⟩ := h
  exact not_assertsReset_of_write ht

/-- On the sequencer's turn no command is accepted next. -/
theorem not_accepts_of_sequencerTurn {s : State} (h : s.sequencerTurn) (a : Alg) : ¬ s.acceptsCommand a := by
  rintro ⟨-, -, rest, ht⟩
  exact not_write_of_sequencerTurn h ⟨_, _, rest, ht⟩

/-- A step that is neither a micro-operation nor an accepted command nor an assertion of reset, and so writes at most
`LEN`, and that not while PROCESSING. -/
structure State.QuietStep (s s' : State) : Prop where
  noReset : ¬ s.assertsReset
  noCommand : ∀ a, ¬ s.acceptsCommand a
  noMicroOp : ¬ (s.sequencerTurn ∧ s.st = .processing)
  same : ∀ r : Reg, r ≠ .len → r.same s s'
  len : s.st = .processing → s'.len = s.len
  inReset : s'.inReset = true → s.inReset = true

/-- While PROCESSING a turn that runs no operation leaves `LEN` alone, unless it asserts reset (R33). -/
theorem hostTurn_len_processing {s : State} (hr : ¬ s.assertsReset) (hp : s.st = .processing) :
    (hostTurn s).len = s.len := by
  by_cases hw : ∃ reg v rest, s.turns = .write reg v :: rest
  · obtain ⟨reg, v, rest, ht⟩ := hw
    simp only [hostTurn, ht]
    rw [writeCsr_processing (s := s.popTurn) hp, popTurn_len]
  · exact hostTurn_len hr hw

theorem inReset_of_hostTurn {s : State} (hr : ¬ s.assertsReset) (h : (hostTurn s).inReset = true) :
    s.inReset = true := by
  cases ht : s.turns with
  | nil => simpa [hostTurn, ht] using h
  | cons x rest =>
    cases x with
    | assertReset => exact absurd ⟨rest, ht⟩ hr
    | wait =>
      simp only [hostTurn, ht] at h
      split at h
      · exact h
      · exact h
    | releaseReset => simp [hostTurn, ht] at h
    | _ => simpa [hostTurn, ht] using h

/-- A turn that runs no operation and does not assert reset is a quiet step. -/
theorem quietStep_hostTurn {s : State} (hr : ¬ s.assertsReset) (hc : ∀ a, ¬ s.acceptsCommand a)
    (hm : ¬ (s.sequencerTurn ∧ s.st = .processing)) : s.QuietStep (hostTurn s) where
  noReset := hr
  noCommand := hc
  noMicroOp := hm
  same r hlen := by
    obtain ⟨hh, hv, hw, hblk, hcur, hcns, hfin, ht, halg, hst, hph⟩ := hostTurn_frame s hr
    cases r with
    | len => exact absurd rfl hlen
    | _ => assumption
  len := hostTurn_len_processing hr
  inReset := inReset_of_hostTurn hr

/-- Every step that answers a next state is of one of four kinds. -/
theorem step_next_cases {s s' : State} (h : step s = .next s') :
    (s.performs [s.ph] ∧ exec (microOp s.alg s.ph) s.consumeTurn = .next s') ∨
    (∃ a, s.acceptsCommand a ∧ s' = s.popTurn.accept a) ∨
    (s.assertsReset ∧ s' = s.popTurn.enterReset) ∨ s.QuietStep s' := by
  rcases step_cases s with ⟨hs, hp, he⟩ | ⟨a, ha, he⟩ | ⟨-, ⟨w, rest, ht⟩, hc, he⟩ | ⟨-, hc, hm, he⟩
  · exact .inl ⟨⟨hs, hp, by simp⟩, he ▸ h⟩
  · obtain rfl : s.popTurn.accept a = s' := by simpa [he] using h
    exact .inr (.inl ⟨a, ha, rfl⟩)
  · obtain rfl : s.popTurn = s' := by simpa [he] using h
    refine .inr (.inr (.inr ⟨not_assertsReset_of_write ht, hc, fun hm => ?_, fun r _ => ?_, fun _ => rfl, id⟩))
    · exact not_write_of_sequencerTurn hm.1 ⟨_, _, rest, ht⟩
    · exact same_popTurn r s
  · obtain rfl : hostTurn s = s' := by simpa [he] using h
    by_cases hr : s.assertsReset
    · obtain ⟨rest, ht⟩ := hr
      exact .inr (.inr (.inl ⟨⟨rest, ht⟩, by simp [hostTurn, ht]⟩))
    · exact .inr (.inr (.inr (quietStep_hostTurn hr hc hm)))

/-! ### The writers of a register -/

/-- A used-up turn is no register. -/
theorem same_consumeTurn (r : Reg) (s : State) : r.same s s.consumeTurn := by
  cases r <;> simp [Reg.same]

theorem Reg.same_trans {r : Reg} {a b c : State} (h1 : r.same a b) (h2 : r.same b c) : r.same a c := by
  cases r <;> exact Eq.trans h2 h1

/-- A step that performs a micro-operation writes only the registers of its phase (R20). -/
theorem micro_step_same {s s' : State} {r : Reg} (h : exec (microOp s.alg s.ph) s.consumeTurn = .next s')
    (hr : r ∉ writtenIn s.ph) : r.same s s' :=
  Reg.same_trans (same_consumeTurn r s) ((exec_micro_frame h).1.1 r hr)

/-- The phases whose micro-operations write a register (R20, the column 'written by'). -/
def writersOf : Reg → List Phase
  | .h => [.init, .fold, .next]
  | .v => [.load, .round]
  | .w => [.parse, .expand]
  | .blk => [.block]
  | .len => []
  | .cur => [.init, .next]
  | .cns => [.block]
  | .fin => [.init, .block]
  | .t => [.parse, .expand, .load, .round]
  | .alg => []
  | .st => [.next]
  | .ph => [.init, .block, .parse, .expand, .load, .round, .fold, .next]

theorem mem_writersOf {r : Reg} {p : Phase} : p ∈ writersOf r ↔ r ∈ writtenIn p := by
  cases r <;> cases p <;> decide

/-- A register other than `LEN` changes only in a step of its writers, by an accepted command if it is `ALG`, `ST` or
`PH`, or by reset. -/
theorem step_register_change {s s' : State} (h : step s = .next s') (hr : ¬ s.assertsReset) {r : Reg}
    (hlen : r ≠ .len) (hc : ¬ r.same s s') :
    s.performs (writersOf r) ∨ r ∈ [Reg.alg, Reg.st, Reg.ph] ∧ ∃ a, s.acceptsCommand a := by
  rcases step_next_cases h with ⟨hp, he⟩ | ⟨a, ha, rfl⟩ | ⟨hr', -⟩ | hq
  · refine .inl ⟨hp.1, hp.2.1, mem_writersOf.mpr ?_⟩
    by_contra hw
    exact hc (micro_step_same he hw)
  · refine .inr ⟨?_, a, ha⟩
    by_contra hw
    exact hc (Reg.same_trans (same_popTurn r s) ((accept_frame s.popTurn a).1 r hw))
  · exact absurd hr' hr
  · exact absurd (hq.same r hlen) hc

/-- `DRV.NEXT` changes `H` only at the end of an operation whose message was changed (log 6). -/
theorem exec_next_h {a : Alg} {s s' : State} (h : exec (microOp a .next) s = .next s') (hm : s.msgChanged = false) :
    s'.h = s.h := by
  rw [exec_next h]
  split <;> simp [hm]

/-! ### Writes of message memory -/

/-- A store takes place in every state (R73). -/
theorem step_store {s : State} {x : Length} {b : Byte} {rest : List Turn} (h : s.turns = .store x b :: rest) :
    step s = .next (State.storeMessage { s with turns := rest } x b) := by
  have hf : fetch s = none := by simp [fetch, h]
  simp [step, hf, hostTurn, h, popTurn_eq h]

/-- A turn that runs no operation and is no store leaves the memory. -/
theorem hostTurn_msg {s : State} (h : ¬ ∃ x b rest, s.turns = .store x b :: rest) : (hostTurn s).msg = s.msg := by
  cases ht : s.turns with
  | nil => simp [hostTurn, ht]
  | cons x rest =>
    cases x with
    | store x b => exact absurd ⟨x, b, rest, ht⟩ h
    | wait => simp only [hostTurn, ht]; split <;> simp
    | _ => simp [hostTurn, ht]

/-- A micro-operation leaves the memory as it is (R64). -/
theorem exec_micro_msg {a : Alg} {p : Phase} {s s' : State} (h : exec (microOp a p) s = .next s') : s'.msg = s.msg := by
  cases p with
  | init => rw [exec_init h]; simp
  | block => obtain ⟨c, -, ⟨p, -, rfl⟩ | ⟨-, rfl⟩⟩ := exec_block h <;> simp
  | parse => rw [exec_parse h]; simp
  | expand => rw [(exec_expand h).2.2]; simp
  | load => rw [exec_load h]; simp
  | round => rw [(exec_round h).2]; simp
  | fold => rw [exec_fold h]; simp
  | next => rw [exec_next h]; split <;> simp

/-- Every step that is no store leaves the memory. -/
theorem step_msg {s s' : State} (h : step s = .next s') (hst : ¬ ∃ x b rest, s.turns = .store x b :: rest) :
    s'.msg = s.msg := by
  rcases step_cases s with ⟨-, -, he⟩ | ⟨a, -, he⟩ | ⟨-, -, -, he⟩ | ⟨-, -, -, he⟩
  · rw [exec_micro_msg (he ▸ h), consumeTurn_msg]
  · obtain rfl : s.popTurn.accept a = s' := by simpa [he] using h
    rfl
  · obtain rfl : s.popTurn = s' := by simpa [he] using h
    rfl
  · obtain rfl : hostTurn s = s' := by simpa [he] using h
    exact hostTurn_msg hst

end Sys2Proof.Machine

namespace Sys2Proof.Proofs

open Sys2Proof.Machine

/-- Settles O52, by the four kinds of step. -/
theorem driverStateChangesOnlyAsTheTableSays : Obligations.DriverStateChangesOnlyAsTheTableSays := by
  intro s s' h
  rcases step_next_cases h with ⟨⟨hs, hp, -⟩, he⟩ | ⟨a, ha, rfl⟩ | ⟨hr, rfl⟩ | hq
  · have hst := exec_micro_st he
    rw [consumeTurn_fin, consumeTurn_st] at hst
    refine ⟨fun hr => absurd hr (not_assertsReset_of_sequencerTurn hs),
      fun a ha => absurd ha (not_accepts_of_sequencerTurn hs a), ?_, fun _ _ hn => ?_⟩
    · rintro ⟨-, -, hph⟩ hf
      rw [hst, if_pos ⟨by simpa using hph, hf⟩]
    · rw [hst, if_neg]
      rintro ⟨hph, hf⟩
      exact hn ⟨⟨hs, hp, by simp [hph]⟩, hf⟩
  · exact ⟨fun hr => absurd hr (not_assertsReset_of_accepts ha), fun _ _ => rfl,
      fun hm => absurd ha (not_accepts_of_sequencerTurn hm.1 a), fun _ hn => absurd ha (hn a)⟩
  · exact ⟨fun _ => rfl, fun a ha => absurd hr (not_assertsReset_of_accepts ha),
      fun hm => absurd hr (not_assertsReset_of_sequencerTurn hm.1), fun hn => absurd hr hn⟩
  · exact ⟨fun hr => absurd hr hq.noReset, fun a ha => absurd ha (hq.noCommand a),
      fun hm => absurd ⟨hm.1, hm.2.1⟩ hq.noMicroOp, fun _ _ _ => hq.same .st (by decide)⟩

/-- Settles O53: no micro-operation writes `ALG` or `LEN`. -/
theorem operandsAreConstantDuringAnOperation : Obligations.OperandsAreConstantDuringAnOperation := by
  intro s s' h hr
  rcases step_next_cases h with ⟨-, he⟩ | ⟨a, ha, rfl⟩ | ⟨hr', -⟩ | hq
  · have halg : s'.alg = s.alg := micro_step_same (r := .alg) he fun hw => by cases mem_writersOf.mpr hw
    have hlen : s'.len = s.len := micro_step_same (r := .len) he fun hw => by cases mem_writersOf.mpr hw
    exact ⟨fun hne => absurd halg hne, fun _ => ⟨halg, hlen⟩⟩
  · exact ⟨fun _ => ⟨a, ha, rfl⟩, fun hp => absurd hp ha.2.1⟩
  · exact absurd hr' hr
  · have halg : s'.alg = s.alg := hq.same .alg (by decide)
    exact ⟨fun hne => absurd halg hne, fun hp => ⟨halg, hq.len hp⟩⟩

/-- Settles O54: a step that is no store leaves the memory, and a store writes its byte alone. -/
theorem processorNeverWritesMemory : Obligations.ProcessorNeverWritesMemory := by
  refine ⟨fun s s' h off => ?_, fun s x b rest ht => ⟨_, step_store ht, rfl, read_write_same _ _ _,
    fun off hne => read_write_other _ _ _ _ hne, rfl, rfl, fun r => by cases r <;> rfl⟩⟩
  by_cases hst : ∃ x b rest, s.turns = .store x b :: rest
  · obtain ⟨x, b, rest, ht⟩ := hst
    obtain rfl : State.storeMessage { s with turns := rest } x b = s' := by simpa [step_store ht] using h
    by_cases hx : off = x.toNat
    · exact .inr ⟨x, b, rest, ht, hx, by rw [hx]; exact read_write_same _ _ _⟩
    · exact .inl (read_write_other _ _ _ _ hx)
  · rw [step_msg h hst]
    exact .inl rfl

/-- Settles O55: each register by its writers; that `DRV.NEXT` leaves `H` unless the message was changed is the one
clause that looks into a micro-operation. -/
theorem hiddenRegistersChangeOnlyByTheirWriters : Obligations.HiddenRegistersChangeOnlyByTheirWriters := by
  intro s s' h hr
  have writers {r : Reg} (hlen : r ≠ .len) (hcmd : r ∉ [Reg.alg, Reg.st, Reg.ph]) (hc : ¬ r.same s s') :
      s.performs (writersOf r) :=
    (step_register_change h hr hlen hc).resolve_right fun hcom => hcmd hcom.1
  refine ⟨fun hc => ?_, writers (r := .v) (by decide) (by decide), writers (r := .w) (by decide) (by decide),
    writers (r := .blk) (by decide) (by decide), writers (r := .cns) (by decide) (by decide),
    writers (r := .fin) (by decide) (by decide), writers (r := .cur) (by decide) (by decide),
    writers (r := .t) (by decide) (by decide), fun hc => ?_⟩
  · obtain ⟨hs, hp, hph⟩ := writers (r := .h) (by decide) (by decide) hc
    by_cases hn : s.ph = .next
    · refine .inr ⟨⟨hs, hp, by simp [hn]⟩, ?_⟩
      by_contra hm
      have he : exec (microOp s.alg .next) s.consumeTurn = .next s' := by rw [← hn, ← step_sequencer hs hp, h]
      exact hc ((exec_next_h he (by simpa using hm)).trans (consumeTurn_h s))
    · exact .inl ⟨hs, hp, by simpa [writersOf, hn] using hph⟩
  · obtain hp | ⟨-, a, ha⟩ := step_register_change h hr (r := .ph) (by decide) hc
    · exact .inr hp
    · exact .inl ⟨a, ha⟩

end Sys2Proof.Proofs

/-! The invariant of the machine (10_state.md R21, R27, R29; 41_block_builder.md R171, R172; 44_driver.md R218, R220):
what it asks for in each phase is enough for the phase's micro-operation, which follows the successor table and keeps it. -/

namespace Sys2Proof.Machine

/-! ### What the invariant asks of the position, phase by phase -/

theorem positionOk_init {s : State} (h : s.ph = .init) : s.positionOk := by simp [State.positionOk, h]

theorem positionOk_block {s : State} (h : s.ph = .block) : s.positionOk ↔ cursorOk s.len.toNat s.cur.toNat := by
  simp [State.positionOk, h]

theorem positionOk_expand {s : State} (h : s.ph = .expand) :
    s.positionOk ↔ s.blockOk ∧ 16 ≤ s.t.toNat ∧ s.t.toNat < Config.nw s.alg := by
  simp [State.positionOk, h]

theorem positionOk_round {s : State} (h : s.ph = .round) :
    s.positionOk ↔ s.blockOk ∧ s.t.toNat < Config.nr s.alg := by
  simp [State.positionOk, h]

/-- The other phases between `BB.NEXT` and `DRV.NEXT` have no index to bound. -/
theorem positionOk_between {s : State} (h : s.ph ∈ [Phase.parse, .load, .fold, .next]) : s.positionOk ↔ s.blockOk := by
  simp only [List.mem_cons, List.not_mem_nil, or_false] at h
  obtain h | h | h | h := h <;> simp [State.positionOk, h]

/-! ### The position depends on the registers alone -/

theorem blockOk_of_same {s s' : State} (hfin : s'.fin = s.fin) (hcns : s'.cns = s.cns) (hcur : s'.cur = s.cur)
    (hlen : s'.len = s.len) (h : s.blockOk) : s'.blockOk := by
  unfold State.blockOk at h ⊢
  rwa [hfin, hcns, hcur, hlen]

theorem positionOk_of_same {s s' : State} (h : ∀ r : Reg, r.same s s') (hp : s.positionOk) : s'.positionOk := by
  have hph : s'.ph = s.ph := h .ph
  have hlen : s'.len = s.len := h .len
  have hcur : s'.cur = s.cur := h .cur
  have ht : s'.t = s.t := h .t
  have halg : s'.alg = s.alg := h .alg
  have hb : s.blockOk → s'.blockOk := blockOk_of_same (h .fin) (h .cns) hcur hlen
  cases hs : s.ph with
  | init => exact positionOk_init (hph.trans hs)
  | block =>
    rw [positionOk_block hs] at hp
    rwa [positionOk_block (hph.trans hs), hlen, hcur]
  | expand =>
    rw [positionOk_expand hs] at hp
    rw [positionOk_expand (hph.trans hs), ht, halg]
    exact ⟨hb hp.1, hp.2⟩
  | round =>
    rw [positionOk_round hs] at hp
    rw [positionOk_round (hph.trans hs), ht, halg]
    exact ⟨hb hp.1, hp.2⟩
  | _ =>
    rw [positionOk_between (by simp [hs])] at hp
    exact (positionOk_between (by simp [hph, hs])).mpr (hb hp)

theorem upperHashOk_of_same {s s' : State} (halg : s'.alg = s.alg) (hh : s'.h = s.h) (h : s.upperHashOk) :
    s'.upperHashOk := by
  unfold State.upperHashOk at h ⊢
  rwa [halg, hh]

/-! ### The cursor from block to block -/

/-- At a cursor of R171 the BlockBuilder has a case (R167). -/
theorem padCase_of_cursorOk {l c : Nat} (h : cursorOk l c) : ∃ k, padCase l c = some k := by
  cases hk : padCase l c with
  | some k => exact ⟨k, rfl⟩
  | none =>
    obtain ⟨hle, hc⟩ := h
    rcases (padCase_eq_none_iff l c).mp hk with hk | ⟨hk, h1, h2⟩ <;> omega

/-- What a block consumes ends inside the message. -/
theorem cursor_add_consumed_le {l c : Nat} {k : PadCase} (h : padCase l c = some k) :
    c + (consumed k (l - c)).toNat ≤ l := by
  obtain ⟨hle, hg⟩ := padCase_eq_some h
  rw [consumed_toNat h]
  cases k <;> simp only [caseGuard] at hg <;> dsimp only <;> omega

/-- After a block that is not the last the cursor is again one of R171. -/
theorem cursorOk_add_consumed {l c : Nat} {k : PadCase} (h : padCase l c = some k) (hc : cursorOk l c)
    (hf : finFlag k = false) : cursorOk l (c + (consumed k (l - c)).toNat) := by
  obtain ⟨hle, hg⟩ := padCase_eq_some h
  obtain ⟨-, hc⟩ := hc
  rw [consumed_toNat h, cursorOk]
  cases k with
  | full => simp only [caseGuard] at hg; dsimp only; omega
  | tail => simp only [caseGuard] at hg; dsimp only; omega
  | last => cases hf
  | padWithTerm => cases hf
  | padWithoutTerm => cases hf

/-- `BB.NEXT` establishes what holds up to the `DRV.NEXT` of its block. -/
theorem blockOk_putBlock {s : State} {c : PadCase} (p : List Byte) (hc : padCase s.len.toNat s.cur.toNat = some c)
    (hok : cursorOk s.len.toNat s.cur.toNat) : (putBlock c p s).blockOk := by
  unfold State.blockOk
  rw [putBlock_fin, putBlock_cns, putBlock_cur, putBlock_len]
  exact ⟨finFlag_iff_consumed_zero hc, cursor_add_consumed_le hc, cursorOk_add_consumed hc hok⟩

/-- `DRV.NEXT` advances the cursor inside the message, without overflow. -/
theorem advanceCursor_toNat_of_blockOk {s : State} (h : s.blockOk) :
    (advanceCursor s).cur.toNat = s.cur.toNat + s.cns.toNat := by
  obtain ⟨-, hle, -⟩ := h
  rw [advanceCursor_toNat]
  exact Nat.mod_eq_of_lt (Nat.lt_of_le_of_lt hle s.len.isLt)

/-! ### Progress -/

/-- At a position of the invariant the micro-operation answers a next state. -/
theorem exec_micro_next {s : State} (h : s.positionOk) : ∃ s', exec (microOp s.alg s.ph) s = .next s' := by
  cases hph : s.ph with
  | block =>
    obtain ⟨c, hc⟩ := padCase_of_cursorOk ((positionOk_block hph).mp h)
    have he : exec (microOp s.alg .block) s = execBbNext s := by cases s.alg <;> rfl
    rw [he]
    cases hp : readBytes s.msg s.cur.toNat (payloadLength c (s.len.toNat - s.cur.toNat)) with
    | none => exact ⟨_, execBbNext_stuck hc hp⟩
    | some p => exact ⟨_, execBbNext_eq hc hp⟩
  | expand =>
    obtain ⟨-, h16, hl⟩ := (positionOk_expand hph).mp h
    exact ⟨_, exec_expand_eq h16 hl⟩
  | round => exact ⟨_, exec_round_eq ((positionOk_round hph).mp h).2⟩
  | _ => cases s.alg <;> exact ⟨_, rfl⟩

/-! ### The successor table -/

/-- Below its last value an index grows by 1, and at it the phase ends (R218). -/
theorem nextIndex_cases (s : State) {n : Nat} (hn : n ≤ 80) (ht : s.t.toNat < n) (p : Phase) :
    (s.t.toNat < n - 1 → (s.nextIndex (n - 1) p).ph = s.ph ∧ (s.nextIndex (n - 1) p).t.toNat = s.t.toNat + 1) ∧
    (s.t.toNat = n - 1 → (s.nextIndex (n - 1) p).ph = p) := by
  refine ⟨fun hlt => ⟨?_, nextIndex_t_toNat s _ p (Nat.ne_of_lt hlt) (by omega)⟩, fun heq => ?_⟩
  · rw [nextIndex_ph, if_neg (Nat.ne_of_lt hlt)]
  · rw [nextIndex_ph, if_pos heq]

theorem nw_le (a : Alg) : Config.nw a ≤ 80 := by cases a <;> decide

theorem nr_le (a : Alg) : Config.nr a ≤ 80 := by cases a <;> decide

/-- An enabled micro-operation follows the table of R218. -/
theorem exec_micro_successor {s s' : State} (hp : s.st = .processing) (hb : s.ph = .block → s.blockReadable)
    (h : exec (microOp s.alg s.ph) s = .next s') : successor s s' := by
  have hst (hn : ¬ (s.ph = .next ∧ s.fin = true)) : s'.st = .processing := by rw [exec_micro_st h, if_neg hn, hp]
  have hdone (hn : s.ph = .next ∧ s.fin = true) : s'.st = .done := by rw [exec_micro_st h, if_pos hn]
  unfold successor
  cases hph : s.ph with
  | init =>
    rw [hph] at h
    exact ⟨by rw [exec_init h, initDriver_ph], hst (by simp [hph])⟩
  | block =>
    rw [hph] at h
    obtain ⟨c, p, -, -, hs⟩ := exec_block_readable (hb hph) h
    exact ⟨by rw [hs, putBlock_ph], hst (by simp [hph])⟩
  | parse =>
    rw [hph] at h
    exact ⟨by rw [exec_parse h, parseBlock_ph], by rw [exec_parse h, parseBlock_t], hst (by simp [hph])⟩
  | expand =>
    rw [hph] at h
    obtain ⟨-, hl, hs⟩ := exec_expand h
    obtain ⟨hlt, hlast⟩ := nextIndex_cases (s.putWord s.t.toNat (expandWord s.alg s)) (nw_le s.alg) hl .load
    rw [← hs] at hlt hlast
    exact ⟨fun ht => ⟨(hlt ht).1.trans hph, (hlt ht).2⟩, hlast, hst (by simp [hph])⟩
  | load =>
    rw [hph] at h
    exact ⟨by rw [exec_load h, loadVars_ph], by rw [exec_load h, loadVars_t], hst (by simp [hph])⟩
  | round =>
    rw [hph] at h
    obtain ⟨hl, hs⟩ := exec_round h
    obtain ⟨hlt, hlast⟩ := nextIndex_cases (s.putVars (roundVars s.alg s)) (nr_le s.alg) hl .fold
    rw [← hs] at hlt hlast
    exact ⟨fun ht => ⟨(hlt ht).1.trans hph, (hlt ht).2⟩, hlast, hst (by simp [hph])⟩
  | fold =>
    rw [hph] at h
    exact ⟨by rw [exec_fold h, foldHash_ph], hst (by simp [hph])⟩
  | next =>
    rw [hph] at h
    exact ⟨fun hf => ⟨by simp [exec_next h, hf], hst (by simp [hf])⟩, fun hf => hdone ⟨hph, hf⟩⟩

/-! ### The invariant over a micro-operation -/

/-- The micro-operations after `BB.NEXT` and before `DRV.NEXT` leave what `BB.NEXT` established. -/
theorem exec_micro_blockOk {a : Alg} {p : Phase} {s s' : State} (h : exec (microOp a p) s = .next s')
    (hp : p ∈ [Phase.parse, .expand, .load, .round, .fold]) (hb : s.blockOk) : s'.blockOk := by
  have hs : ∀ r ∈ [Reg.fin, .cns, .cur, .len], r.same s s' := fun r hr =>
    (exec_micro_frame h).1.1 r (by revert hr hp; cases r <;> cases p <;> decide)
  exact blockOk_of_same (hs .fin (by decide)) (hs .cns (by decide)) (hs .cur (by decide)) (hs .len (by decide)) hb

/-- An index that has not reached its last value stays in its range. -/
theorem nextIndex_position (s : State) {n : Nat} (hn : n ≤ 80) (ht : s.t.toNat < n) (p : Phase) :
    (s.nextIndex (n - 1) p).ph = p ∨
      (s.nextIndex (n - 1) p).ph = s.ph ∧ (s.nextIndex (n - 1) p).t.toNat = s.t.toNat + 1 ∧ s.t.toNat + 1 < n := by
  obtain ⟨hlt, hlast⟩ := nextIndex_cases s hn ht p
  by_cases hl : s.t.toNat = n - 1
  · exact .inl (hlast hl)
  · exact .inr ⟨(hlt (by omega)).1, (hlt (by omega)).2, by omega⟩

/-- A micro-operation leads from a reachable position to a reachable one, unless it ends the operation. -/
theorem exec_micro_positionOk {s s' : State} (hpos : s.positionOk) (h : exec (microOp s.alg s.ph) s = .next s')
    (hst : s'.st = .processing) : s'.positionOk := by
  have halg : s'.alg = s.alg := (exec_micro_frame h).1.1 .alg (by cases s.ph <;> decide)
  cases hph : s.ph with
  | init =>
    rw [hph] at h
    rw [exec_init h]
    exact (positionOk_block rfl).mpr ⟨Nat.zero_le _, .inl rfl⟩
  | block =>
    rw [hph] at h
    obtain ⟨c, hc, ⟨p, -, rfl⟩ | ⟨-, rfl⟩⟩ := exec_block h
    · exact (positionOk_between (by simp)).mpr (blockOk_putBlock p hc ((positionOk_block hph).mp hpos))
    · exact hpos
  | parse =>
    rw [hph] at h
    have hb := exec_micro_blockOk h (by decide) ((positionOk_between (by simp [hph])).mp hpos)
    rw [positionOk_expand (by rw [exec_parse h, parseBlock_ph]), exec_parse h, parseBlock_t, parseBlock_alg]
    exact ⟨exec_parse h ▸ hb, le_rfl, by cases s.alg <;> decide⟩
  | expand =>
    rw [hph] at h
    obtain ⟨hb, h16, hl⟩ := (positionOk_expand hph).mp hpos
    replace hb := exec_micro_blockOk h (by decide) hb
    have hn := nextIndex_position (s.putWord s.t.toNat (expandWord s.alg s)) (nw_le s.alg) hl .load
    rw [← (exec_expand h).2.2] at hn
    obtain hn | ⟨hn, ht, hlt⟩ := hn
    · exact (positionOk_between (by simp [hn])).mpr hb
    · rw [positionOk_expand (hn.trans hph), ht, halg]
      exact ⟨hb, Nat.le_succ_of_le h16, hlt⟩
  | load =>
    rw [hph] at h
    have hb := exec_micro_blockOk h (by decide) ((positionOk_between (by simp [hph])).mp hpos)
    rw [positionOk_round (by rw [exec_load h, loadVars_ph]), exec_load h, loadVars_t, loadVars_alg]
    exact ⟨exec_load h ▸ hb, by cases s.alg <;> decide⟩
  | round =>
    rw [hph] at h
    obtain ⟨hb, hl⟩ := (positionOk_round hph).mp hpos
    replace hb := exec_micro_blockOk h (by decide) hb
    have hn := nextIndex_position (s.putVars (roundVars s.alg s)) (nr_le s.alg) hl .fold
    rw [← (exec_round h).2] at hn
    obtain hn | ⟨hn, ht, hlt⟩ := hn
    · exact (positionOk_between (by simp [hn])).mpr hb
    · rw [positionOk_round (hn.trans hph), ht, halg]
      exact ⟨hb, hlt⟩
  | fold =>
    rw [hph] at h
    have hb := exec_micro_blockOk h (by decide) ((positionOk_between (by simp [hph])).mp hpos)
    exact (positionOk_between (by simp [exec_fold h])).mpr hb
  | next =>
    rw [hph] at h
    have hb := (positionOk_between (by simp [hph])).mp hpos
    have hs := exec_next h
    cases hf : s.fin with
    | true => rw [hs, hf, if_pos rfl, finish_st] at hst; cases hst
    | false =>
      rw [hs, hf, if_neg (by decide)]
      refine (positionOk_block rfl).mpr ?_
      show cursorOk s.len.toNat (advanceCursor s).cur.toNat
      rw [advanceCursor_toNat_of_blockOk hb]
      exact hb.2.2 hf

/-- The start of a SHA-1 operation clears the words past the digest, and every other micro-operation leaves them. -/
theorem exec_micro_upperHashOk {s s' : State} (h : exec (microOp s.alg s.ph) s = .next s')
    (hup : s.ph ≠ .init → s.upperHashOk) : s'.upperHashOk := by
  intro ha'
  have halg : s'.alg = s.alg := (exec_micro_frame h).1.1 .alg (by cases s.ph <;> decide)
  have ha : s.alg = .sha1 := halg.symm.trans ha'
  have upper (hi : s.ph ≠ .init) (hw : ∀ i (h8 : i < 8), 5 ≤ i → s'.h[i] = s.h[i]) :
      s'.h[5] = 0 ∧ s'.h[6] = 0 ∧ s'.h[7] = 0 := by
    rw [hw 5 (by decide) (by decide), hw 6 (by decide) (by decide), hw 7 (by decide) (by decide)]
    exact hup hi ha
  by_cases hi : s.ph = .init
  · rw [hi, ha] at h
    rw [exec_init h]
    exact ⟨rfl, rfl, rfl⟩
  · refine upper hi fun i h8 h5 => ?_
    by_cases hf : s.ph = .fold
    · rw [hf, ha] at h
      rw [exec_fold h]
      exact (foldHash_h_get 5 s ⟨i, h8⟩).trans (if_neg (by simpa using h5))
    · by_cases hn : s.ph = .next
      · rw [hn] at h
        rw [exec_next h]
        split
        · exact finish_h_upper (advanceCursor s) ha i h5 h8
        · rfl
      · have hh : s'.h = s.h := (exec_micro_frame h).1.1 .h (by revert hi hf hn; cases s.ph <;> decide)
        rw [hh]

/-- A micro-operation keeps the invariant. -/
theorem exec_micro_inv {s s' : State} (hi : s.Inv) (hr : s.inReset = false) (hp : s.st = .processing)
    (h : exec (microOp s.alg s.ph) s = .next s') : s'.Inv where
  memory := by rw [exec_micro_msg h]; exact hi.memory
  reset hr' := by
    rw [(exec_micro_frame h).1.2.1, hr] at hr'
    cases hr'
  position := exec_micro_positionOk (hi.position hp) h
  upperHash _ := exec_micro_upperHashOk h fun hn => hi.upperHash (.inl ⟨hp, hn⟩)

/-! ### The invariant over a step -/

/-- Every step keeps the canonical form of the memory. -/
theorem step_keeps_memory_wf {s s' : State} (h : step s = .next s') (hm : Memory.wf s.msg = true) :
    Memory.wf s'.msg = true := by
  by_cases hst : ∃ x b rest, s.turns = .store x b :: rest
  · obtain ⟨x, b, rest, ht⟩ := hst
    obtain rfl : State.storeMessage { s with turns := rest } x b = s' := by simpa [step_store ht] using h
    exact write_keeps_wf s.msg x b hm
  · rwa [step_msg h hst]

/-- A step that changes no register, but for `LEN` while not PROCESSING, keeps the invariant. -/
theorem inv_of_same {s s' : State} (hi : s.Inv) (hm : Memory.wf s'.msg = true)
    (hr : s'.inReset = true → s.inReset = true) (hs : ∀ r : Reg, r ≠ .len → r.same s s')
    (hlen : s.st = .processing → s'.len = s.len) : s'.Inv where
  memory := hm
  reset hr' := (hs .st (by decide)).trans (hi.reset (hr hr'))
  position hp := by
    replace hp : s.st = .processing := (hs .st (by decide)).symm.trans hp
    refine positionOk_of_same (fun r => ?_) (hi.position hp)
    by_cases hl : r = .len
    · subst hl; exact hlen hp
    · exact hs r hl
  upperHash hc := by
    rw [show s'.st = s.st from hs .st (by decide), show s'.ph = s.ph from hs .ph (by decide)] at hc
    exact upperHashOk_of_same (hs .alg (by decide)) (hs .h (by decide)) (hi.upperHash hc)

/-- A used-up turn keeps the invariant. -/
theorem inv_consumeTurn {s : State} (hi : s.Inv) : s.consumeTurn.Inv :=
  inv_of_same hi (by simpa using hi.memory) (by simp) (fun r _ => same_consumeTurn r s) (by simp)

end Sys2Proof.Machine

namespace Sys2Proof.Proofs

open Sys2Proof.Machine

/-- Settles O49, by the four kinds of step: an accepted command starts at phase INIT, where the invariant asks nothing
of the position, and reset leaves IDLE. -/
theorem everyStepKeepsTheInvariant : Obligations.EveryStepKeepsTheInvariant := by
  intro s s' hi h
  have hm := step_keeps_memory_wf h hi.memory
  rcases step_next_cases h with ⟨⟨hs, hp, -⟩, he⟩ | ⟨a, ha, rfl⟩ | ⟨-, rfl⟩ | hq
  · exact exec_micro_inv (inv_consumeTurn hi) (by simpa using hs.1) (by simpa using hp) (by simpa using he)
  · refine ⟨hm, fun hr => ?_, fun _ => positionOk_init rfl, fun hc => ?_⟩
    · rw [accept_inReset, popTurn_inReset, ha.1] at hr
      cases hr
    · obtain ⟨-, hn⟩ | hd := hc
      · exact absurd rfl hn
      · cases hd
  · refine ⟨hm, fun _ => rfl, fun hp => (by cases hp), fun hc => ?_⟩
    obtain ⟨hp, -⟩ | hd := hc
    · cases hp
    · cases hd
  · exact inv_of_same hi hm hq.inReset hq.same hq.len

/-- Settles O50: of the kinds of step only a micro-operation can be refused, and not at a position of the invariant. -/
theorem invariantStatesAlwaysStep : Obligations.InvariantStatesAlwaysStep := by
  intro s hi
  rcases step_cases s with ⟨-, hp, he⟩ | ⟨a, -, he⟩ | ⟨-, -, -, he⟩ | ⟨-, -, -, he⟩
  · obtain ⟨s', hn⟩ := exec_micro_next ((inv_consumeTurn hi).position (by simpa using hp))
    exact ⟨s', by simpa [he] using hn⟩
  · exact ⟨_, he⟩
  · exact ⟨_, he⟩
  · exact ⟨_, he⟩

/-- Settles O51: the step is the micro-operation of the phase, with the turn used up. -/
theorem sequencerFollowsTheSuccessorTable : Obligations.SequencerFollowsTheSuccessorTable := by
  intro s s' _ hs hp hb h
  rw [step_sequencer hs hp] at h
  have hsucc : successor s.consumeTurn s' :=
    exec_micro_successor (by simpa using hp) (by simpa [State.blockReadable] using hb) (by simpa using h)
  simpa [successor] using hsucc

end Sys2Proof.Proofs

/-! The sequence of blocks (41_block_builder.md R169 to R173): the padded message is whole blocks, and the block built
at the cursor of block `j` is its piece `j`, case by case. -/

namespace Sys2Proof.Machine

/-! ### Lengths -/

theorem zeroFill_spec (n : Nat) : (n + 1 + zeroFill n) % 64 = 56 := by unfold zeroFill; omega

/-- No shorter fill does (R169). -/
theorem zeroFill_least {n k : Nat} (h : k < zeroFill n) : (n + 1 + k) % 64 ≠ 56 := by unfold zeroFill at h; omega

theorem pad_length (m : List Byte) : (pad m).length = 64 * blockCount m.length := by
  have hk : zeroFill m.length = (119 - m.length % 64) % 64 := rfl
  have hb : blockCount m.length = (m.length + 9 + 63) / 64 := rfl
  simp only [pad, List.length_append, List.length_singleton, List.length_replicate, be64_length]
  omega

/-- The second form of the block count (R170). -/
theorem blockCount_eq (n : Nat) : blockCount n = n / 64 + 1 + (if 56 ≤ n % 64 then 1 else 0) := by
  unfold blockCount
  split <;> omega

/-! ### Pieces of the padded message -/

/-- A stretch of 64 bytes that starts at a multiple of 64 is a piece. -/
theorem piece_eq {bytes A B C : List Byte} {j : Nat} (h : bytes = A ++ (B ++ C)) (hA : A.length = 64 * j)
    (hB : B.length = 64) : piece bytes j = B := by
  rw [h, piece, List.drop_left' hA, List.take_left' hB]

/-- The length field of the padding (R169). -/
def padLength (m : List Byte) : List Byte := be64 (BitVec.ofNat 64 (8 * m.length))

theorem padLength_length (m : List Byte) : (padLength m).length = 8 := be64_length _

/-- The BlockBuilder writes the same (R101). -/
theorem lengthField_eq_padLength {len : Length} {m : List Byte} (h : len.toNat = m.length) :
    lengthField len = padLength m := by
  rw [lengthField, padLength, ← h]
  congr 1
  apply BitVec.eq_of_toNat_eq
  have := len.isLt
  rw [bitLength_toNat, BitVec.toNat_ofNat]
  omega

/-- 64 bytes of the message (R164). -/
theorem piece_pad_full {pre p post : List Byte} {j : Nat} (hpre : pre.length = 64 * j) (hp : p.length = 64) :
    piece (pad (pre ++ (p ++ post))) j = p := by
  refine piece_eq (C := post ++ ([Config.termByte] ++ (List.replicate (zeroFill (pre ++ (p ++ post)).length) 0 ++
    padLength (pre ++ (p ++ post))))) ?_ hpre hp
  simp only [pad, padLength, List.append_assoc]

/-- The rest of the message, too long for the length field (R165). -/
theorem piece_pad_tail {pre p : List Byte} {j : Nat} (hpre : pre.length = 64 * j) (h1 : 56 ≤ p.length)
    (h2 : p.length ≤ 63) :
    piece (pad (pre ++ p)) j = p ++ [Config.termByte] ++ List.replicate (63 - p.length) 0 := by
  have hz : zeroFill (pre ++ p).length = (63 - p.length) + 56 := by
    rw [zeroFill, List.length_append]; omega
  refine piece_eq (C := List.replicate 56 0 ++ padLength (pre ++ p)) ?_ hpre (by simp; omega)
  rw [pad, hz, ← List.replicate_append_replicate, padLength]
  simp only [List.append_assoc]

/-- The rest of the message, with the length field (R166); no byte of it for the block after full blocks (R162). -/
theorem piece_pad_last {pre p : List Byte} {j : Nat} (hpre : pre.length = 64 * j) (h : p.length ≤ 55) :
    piece (pad (pre ++ p)) j =
      p ++ [Config.termByte] ++ List.replicate (55 - p.length) 0 ++ padLength (pre ++ p) := by
  have hz : zeroFill (pre ++ p).length = 55 - p.length := by
    rw [zeroFill, List.length_append]; omega
  refine piece_eq (C := []) ?_ hpre (by simp [padLength_length]; omega)
  rw [pad, hz, padLength]
  simp only [List.append_assoc, List.append_nil]

/-- The block after the tail: zeros and the length field (R163). -/
theorem piece_pad_afterTail {m : List Byte} {j : Nat} (h1 : 56 ≤ m.length % 64) (hj : j = m.length / 64 + 1) :
    piece (pad m) j = List.replicate 56 0 ++ padLength m := by
  have hz : zeroFill m.length = (63 - m.length % 64) + 56 := by
    rw [zeroFill]; omega
  refine piece_eq (A := m ++ [Config.termByte] ++ List.replicate (63 - m.length % 64) 0) (C := []) ?_
    (by simp; omega) (by simp [padLength_length])
  rw [pad, hz, ← List.replicate_append_replicate, padLength]
  simp only [List.append_assoc, List.append_nil]

/-! ### The cursor of block `j` -/

/-- Below the block count the cursor of R173 is one of R171. -/
theorem cursorOk_cursorAt {l j : Nat} (hj : j < blockCount l) : cursorOk l (cursorAt l j) := by
  unfold blockCount at hj
  unfold cursorOk cursorAt
  omega

/-- Which block each case builds: the blocks with payload start at `64 j`, the others are the last one. -/
theorem block_of_case {l j : Nat} {k : PadCase} (hj : j < blockCount l) (h : padCase l (cursorAt l j) = some k) :
    match k with
    | .full => 64 * j + 64 ≤ l
    | .tail => 64 * j + 56 ≤ l ∧ l ≤ 64 * j + 63
    | .last => 64 * j < l ∧ l ≤ 64 * j + 55
    | .padWithTerm => l = 64 * j
    | .padWithoutTerm => 56 ≤ l % 64 ∧ j = l / 64 + 1 := by
  obtain ⟨hle, hg⟩ := padCase_eq_some h
  unfold blockCount at hj
  unfold cursorAt at hg
  cases k <;> simp only [caseGuard] at hg ⊢ <;> omega

/-- The last case is that of the last block (R172). -/
theorem finFlag_iff_last {l j : Nat} {k : PadCase} (hj : j < blockCount l) (h : padCase l (cursorAt l j) = some k) :
    finFlag k = true ↔ j + 1 = blockCount l := by
  have hb := block_of_case hj h
  rw [blockCount]
  cases k <;> simp only [finFlag, true_iff, Bool.false_eq_true, false_iff] <;> dsimp only at hb <;> omega

/-- Unless the block is the last, `CUR + CNS` is the cursor of the next one (R173). -/
theorem cursorAt_succ {l j : Nat} {k : PadCase} (hj : j < blockCount l) (h : padCase l (cursorAt l j) = some k)
    (hf : finFlag k = false) :
    cursorAt l j + (consumed k (l - cursorAt l j)).toNat = cursorAt l (j + 1) := by
  have hb := block_of_case hj h
  rw [consumed_toNat h]
  unfold cursorAt
  cases k with
  | full => dsimp only at hb ⊢; omega
  | tail => dsimp only at hb ⊢; omega
  | last => cases hf
  | padWithTerm => cases hf
  | padWithoutTerm => cases hf

/-- The block at the cursor of block `j`, as the BlockBuilder cuts it from the message, is piece `j` of the padding. -/
theorem blockBytes_eq_piece {m : List Byte} {len : Length} {j : Nat} {k : PadCase} (hlen : len.toNat = m.length)
    (hj : j < blockCount m.length) (h : padCase m.length (cursorAt m.length j) = some k) :
    blockBytes k ((m.drop (cursorAt m.length j)).take (payloadLength k (m.length - cursorAt m.length j)))
      (m.length - cursorAt m.length j) len = piece (pad m) j := by
  have hb := block_of_case hj h
  have hfield := lengthField_eq_padLength hlen
  have hrest : m.take (64 * j) ++ m.drop (64 * j) = m := List.take_append_drop _ _
  have hpre (hle : 64 * j ≤ m.length) : (m.take (64 * j)).length = 64 * j := by simp [hle]
  have hcur (hle : 64 * j ≤ m.length) : cursorAt m.length j = 64 * j := Nat.min_eq_left hle
  have hall : (m.drop (64 * j)).take (m.length - 64 * j) = m.drop (64 * j) := List.take_of_length_le (by simp)
  cases k with
  | full =>
    dsimp only at hb
    have hp := piece_pad_full (post := (m.drop (64 * j)).drop 64) (p := (m.drop (64 * j)).take 64)
      (hpre (by omega)) (by simp; omega)
    rw [List.take_append_drop, hrest] at hp
    rw [hp, hcur (by omega)]
    rfl
  | tail =>
    dsimp only at hb
    have hp := piece_pad_tail (p := m.drop (64 * j)) (hpre (by omega)) (by simp; omega) (by simp; omega)
    rw [hrest, List.length_drop] at hp
    rw [hp, hcur (by omega), payloadLength, hall, blockBytes]
  | last =>
    dsimp only at hb
    have hp := piece_pad_last (p := m.drop (64 * j)) (hpre (by omega)) (by simp; omega)
    rw [hrest, List.length_drop] at hp
    rw [hp, hcur (by omega), payloadLength, hall, blockBytes, hfield]
  | padWithTerm =>
    dsimp only at hb
    have hp := piece_pad_last (pre := m) (p := []) hb (by simp)
    rw [List.append_nil] at hp
    rw [hp, blockBytes, hfield]
    rfl
  | padWithoutTerm =>
    rw [piece_pad_afterTail hb.1 hb.2, blockBytes, hfield]

/-- The message in memory has `LEN` bytes. -/
theorem length_of_holds {s : State} {m : List Byte} (h : s.holds m) : m.length = s.len.toNat :=
  ((readBytes_eq_some_iff _ _ _ _).mp h).1

/-- `BB.NEXT` at the cursor of block `j` (R169, R172, R173). -/
theorem exec_block_at {s : State} {m : List Byte} {j : Nat} (a : Alg) (hm : s.holds m) (hj : j < blockCount s.len.toNat)
    (hcur : s.cur.toNat = cursorAt s.len.toNat j) :
    ∃ s', exec (.bbNext a) s = .next s' ∧ s'.blk.toList = piece (pad m) j ∧
      (s'.fin = true ↔ j + 1 = blockCount s.len.toNat) ∧
      (s'.fin = false → s'.cur.toNat + s'.cns.toNat = cursorAt s.len.toNat (j + 1)) ∧ s'.ph = .parse ∧
      onlyWrites [.blk, .cns, .fin, .ph] s s' := by
  obtain ⟨c, hc⟩ := padCase_of_cursorOk (cursorOk_cursorAt hj)
  have hc' : padCase s.len.toNat s.cur.toNat = some c := hcur ▸ hc
  obtain ⟨-, hg⟩ := padCase_eq_some hc'
  have hp := readBytes_slice s.msg s.len.toNat s.cur.toNat _ m hm (payload_le hc')
  have hl := ((readBytes_eq_some_iff _ _ _ _).mp hp).1
  have hlen := length_of_holds hm
  refine ⟨_, execBbNext_eq hc' hp, ?_, finFlag_iff_last hj hc, fun hf => ?_, putBlock_ph s _ _, putBlock_frame s _ _⟩
  · rw [putBlock_blk, toBlock_toList _ (blockBytes_length hg _ _ hl), hcur, ← hlen]
    exact blockBytes_eq_piece hlen.symm (hlen ▸ hj) (hlen ▸ hc)
  · rw [putBlock_cur, putBlock_cns, hcur]
    exact cursorAt_succ hj hc hf

end Sys2Proof.Machine

namespace Sys2Proof.Proofs

open Sys2Proof.Machine

/-- Settles O33: the case at the cursor of block `j` cuts the piece, and says whether it is the last. -/
theorem blocksArePiecesOfThePaddedMessage : Obligations.BlocksArePiecesOfThePaddedMessage := by
  intro s a m j hm hj hcur
  obtain ⟨s', he, hblk, hfin, hnext, -⟩ := exec_block_at a hm hj hcur
  exact ⟨s', he, hblk, hfin, hnext⟩

/-- Settles O32, by arithmetic modulo 64. -/
theorem paddedMessageFillsWholeBlocks : Obligations.PaddedMessageFillsWholeBlocks := fun m =>
  ⟨pad_length m, zeroFill_spec m.length, fun _ => zeroFill_least, blockCount_eq m.length⟩

end Sys2Proof.Proofs

/-! The MessageScheduler and the Compressor as functions (42_message_scheduler.md R184, 43_compressor.md R195): the free
runs from PARSE to LOAD and from LOAD to FOLD. -/

namespace Sys2Proof.Machine

/-! ### A grown schedule -/

/-- The next word of a schedule depends on the words before it alone. -/
def LooksBack (next : (Nat → Word) → Nat → Word) : Prop :=
  ∀ (W W' : Nat → Word) (t : Nat), 16 ≤ t → (∀ i, i < t → W i = W' i) → next W t = next W' t

theorem grow_length (next : (Nat → Word) → Nat → Word) (ws : List Word) : (grow next ws).length = ws.length + 1 := by
  simp [grow]

theorem grow_getD_lt (next : (Nat → Word) → Nat → Word) {ws : List Word} {i : Nat} (h : i < ws.length) :
    (grow next ws).getD i 0 = ws.getD i 0 := by
  simp only [grow, List.getD_eq_getElem?_getD]
  rw [List.getElem?_append_left h]

theorem grow_getD_length (next : (Nat → Word) → Nat → Word) (ws : List Word) :
    (grow next ws).getD ws.length 0 = next (fun i => ws.getD i 0) ws.length := by
  simp [grow]

/-- Growing leaves the words there are. -/
theorem growBy_getD_lt (next : (Nat → Word) → Nat → Word) (n : Nat) {ws : List Word} {i : Nat} (h : i < ws.length) :
    (growBy next n ws).getD i 0 = ws.getD i 0 := by
  induction n generalizing ws with
  | zero => rfl
  | succ n ih => rw [growBy, ih (by rw [grow_length]; omega), grow_getD_lt next h]

/-- Every word that growing adds is the next word of the whole schedule. -/
theorem growBy_getD_eq_next {next : (Nat → Word) → Nat → Word} (hl : LooksBack next) (n : Nat) {ws : List Word}
    {t : Nat} (h16 : 16 ≤ ws.length) (h1 : ws.length ≤ t) (h2 : t < ws.length + n) :
    (growBy next n ws).getD t 0 = next (fun i => (growBy next n ws).getD i 0) t := by
  induction n generalizing ws with
  | zero => omega
  | succ n ih =>
    rw [growBy]
    obtain rfl | hlt := Nat.eq_or_lt_of_le h1
    · rw [growBy_getD_lt next n (by rw [grow_length]; omega), grow_getD_length]
      refine hl _ _ _ h16 fun i hi => ?_
      rw [growBy_getD_lt next n (by rw [grow_length]; omega), grow_getD_lt next hi]
    · exact ih (by rw [grow_length]; omega) (by rw [grow_length]; omega) (by rw [grow_length]; omega)

/-! ### The schedule of a block -/

/-- The formula of the next schedule word (R181, R182). -/
def nextWord : Alg → (Nat → Word) → Nat → Word
  | .sha1 => fun W t => rotl (W (t - 3) ^^^ W (t - 8) ^^^ W (t - 14) ^^^ W (t - 16)) 1
  | .sha256 => fun W t => add32 (add32 (add32 (ssig1 (W (t - 2))) (W (t - 7))) (ssig0 (W (t - 15)))) (W (t - 16))

theorem nextWord_looksBack (a : Alg) : LooksBack (nextWord a) := by
  intro W W' t h16 h
  cases a with
  | sha1 =>
    simp only [nextWord]
    rw [h (t - 3) (by omega), h (t - 8) (by omega), h (t - 14) (by omega), h (t - 16) (by omega)]
  | sha256 =>
    simp only [nextWord]
    rw [h (t - 2) (by omega), h (t - 7) (by omega), h (t - 15) (by omega), h (t - 16) (by omega)]

/-- The expansion computes the next word from the registers. -/
theorem expandWord_eq (a : Alg) (s : State) : expandWord a s = nextWord a (schedWord s.w) s.t.toNat := by
  cases a <;> rfl

/-- The schedule of a block under each algorithm (R184). -/
def scheduleOf (a : Alg) (B : List Byte) : List Word :=
  match a with
  | .sha1 => sched1 B
  | .sha256 => sched256 B

theorem scheduleOf_eq (a : Alg) (B : List Byte) :
    scheduleOf a B = growBy (nextWord a) (Config.nw a - 16) (blockWords B) := by
  cases a <;> rfl

theorem blockWords_length (B : List Byte) : (blockWords B).length = 16 := by simp [blockWords]

theorem blockByte_eq_getD (b : Vector Byte 64) (i : Nat) : b.toList.getD i 0 = blockByte b i := by
  simp [blockByte, List.getD_eq_getElem?_getD]

theorem blockWords_getD (b : Vector Byte 64) {i : Nat} (h : i < 16) :
    (blockWords b.toList).getD i 0 = blockWord b i := by
  rw [blockWords, List.getD_eq_getElem?_getD, List.getElem?_map, List.getElem?_range h]
  simp only [Option.map_some, Option.getD_some, word32, blockWord, blockByte_eq_getD]

/-- The first sixteen words of the schedule are those of the block. -/
theorem scheduleOf_getD_lt (a : Alg) (b : Vector Byte 64) {i : Nat} (h : i < 16) :
    (scheduleOf a b.toList).getD i 0 = blockWord b i := by
  rw [scheduleOf_eq, growBy_getD_lt _ _ (by rwa [blockWords_length]), blockWords_getD b h]

/-- Every later word follows from the words before it. -/
theorem scheduleOf_getD_eq_next (a : Alg) (B : List Byte) {t : Nat} (h16 : 16 ≤ t) (ht : t < Config.nw a) :
    (scheduleOf a B).getD t 0 = nextWord a (fun i => (scheduleOf a B).getD i 0) t := by
  rw [scheduleOf_eq]
  have hl := blockWords_length B
  exact growBy_getD_eq_next (nextWord_looksBack a) _ (by omega) (by omega) (by omega)

/-! ### Free runs of one micro-operation after another -/

/-- A micro-operation of a free machine, followed by a run. -/
theorem runSteps_micro {s s' : State} (hf : s.free) (hp : s.st = .processing)
    (he : exec (microOp s.alg s.ph) s = .next s') (n : Nat) : runSteps (n + 1) s = runSteps n s' :=
  runSteps_succ ((step_of_free hf hp).trans he) n

/-- One expansion step extends a schedule that is right up to its index. -/
theorem exec_expand_extends {a : Alg} {W : Nat → Word}
    (hW : ∀ t, 16 ≤ t → t < Config.nw a → W t = nextWord a W t) {s : State} (h16 : 16 ≤ s.t.toNat)
    (hl : s.t.toNat < Config.nw a) (hw : ∀ i, i < s.t.toNat → schedWord s.w i = W i) :
    ∃ s', exec (microOp a .expand) s = .next s' ∧ (∀ i, i < s.t.toNat + 1 → schedWord s'.w i = W i) ∧
      (s.t.toNat = Config.nw a - 1 → s'.ph = .load ∧ s'.t = s.t) ∧
      (s.t.toNat ≠ Config.nw a - 1 → s'.t.toNat = s.t.toNat + 1 ∧ s'.ph = s.ph) ∧ onlyWrites [.w, .t, .ph] s s' := by
  have h80 : s.t.toNat < 80 := Nat.lt_of_lt_of_le hl (nw_le a)
  obtain ⟨s', he, hword, hother, hrest⟩ := exec_expand_writes_one_word a rfl h16 h80 hl
  refine ⟨s', he, fun i hi => ?_, hrest⟩
  obtain rfl | hlt := Nat.eq_or_lt_of_le (Nat.le_of_lt_succ hi)
  · rw [schedWord_eq _ _ h80, hword, expandWord_eq, hW _ h16 hl]
    exact nextWord_looksBack a _ _ _ h16 hw
  · have hi80 : i < 80 := Nat.lt_trans hlt h80
    rw [← hw i hlt, schedWord_eq _ _ hi80, schedWord_eq _ _ hi80]
    exact hother ⟨i, hi80⟩ (Nat.ne_of_lt hlt)

/-- From index `T` of EXPAND to LOAD: the rest of the schedule is added. -/
theorem expand_run {a : Alg} {W : Nat → Word} (hW : ∀ t, 16 ≤ t → t < Config.nw a → W t = nextWord a W t) (n : Nat) :
    ∀ {s : State}, s.free → s.st = .processing → s.alg = a → s.ph = .expand → 16 ≤ s.t.toNat →
      s.t.toNat + (n + 1) = Config.nw a → (∀ i, i < s.t.toNat → schedWord s.w i = W i) →
      ∃ s', runSteps (n + 1) s = .next s' ∧ s'.ph = .load ∧ (∀ i, i < Config.nw a → schedWord s'.w i = W i) ∧
        onlyWrites [.w, .t, .ph] s s' := by
  induction n with
  | zero =>
    intro s hf hp ha hph h16 ht hw
    subst ha
    obtain ⟨s', he, hw', hlast, -, hfr⟩ := exec_expand_extends hW h16 (by omega) hw
    exact ⟨s', runSteps_micro hf hp (hph ▸ he) 0, (hlast (by omega)).1, ht ▸ hw', hfr⟩
  | succ n ih =>
    intro s hf hp ha hph h16 ht hw
    subst ha
    obtain ⟨u, he, hw', -, hmore, hfr⟩ := exec_expand_extends hW h16 (by omega) hw
    obtain ⟨htu, hphu⟩ := hmore (by omega)
    obtain ⟨s', hrun, hload, hall, hfr'⟩ := ih (free_of_frame hf hfr) ((hfr.1 .st (by decide)).trans hp)
      (hfr.1 .alg (by decide)) (hphu.trans hph) (by omega) (by omega) (htu ▸ hw')
    exact ⟨s', (runSteps_micro hf hp (hph ▸ he) (n + 1)).trans hrun, hload, hall, onlyWrites_trans hfr hfr'⟩

/-- From PARSE to LOAD: the schedule is that of the block (R184). -/
theorem schedule_run {s : State} (hf : s.free) (hp : s.st = .processing) (hph : s.ph = .parse) :
    ∃ s', runSteps (1 + (Config.nw s.alg - 16)) s = .next s' ∧ s'.ph = .load ∧
      (∀ i, i < Config.nw s.alg → schedWord s'.w i = (scheduleOf s.alg s.blk.toList).getD i 0) ∧
      onlyWrites [.w, .t, .ph] s s' := by
  have he : exec (microOp s.alg .parse) s = .next (parseBlock s) := by cases s.alg <;> rfl
  have hfr := (exec_micro_frame he).1
  have h16 : 16 < Config.nw s.alg := by cases s.alg <;> decide
  have ht : (parseBlock s).t.toNat = 16 := by rw [parseBlock_t]; rfl
  have hw (i : Nat) (hi : i < 16) :
      schedWord (parseBlock s).w i = (scheduleOf s.alg s.blk.toList).getD i 0 := by
    rw [schedWord_eq _ _ (by omega), parseBlock_w_of_lt s i hi, scheduleOf_getD_lt _ _ hi]
  obtain ⟨s', hrun, hload, hall, hfr'⟩ := expand_run (W := fun i => (scheduleOf s.alg s.blk.toList).getD i 0)
    (fun t => scheduleOf_getD_eq_next s.alg s.blk.toList) (Config.nw s.alg - 17) (s := parseBlock s)
    (free_of_frame hf hfr) ((parseBlock_st s).trans hp) (parseBlock_alg s) (parseBlock_ph s) (Nat.le_of_eq ht.symm)
    (by rw [ht]; omega) (fun i hi => hw i (ht ▸ hi))
  refine ⟨s', ?_, hload, hall, onlyWrites_trans hfr hfr'⟩
  rw [show 1 + (Config.nw s.alg - 16) = Config.nw s.alg - 17 + 1 + 1 by omega, runSteps_micro hf hp (hph ▸ he), hrun]

/-! ### The rounds -/

/-- One round of each algorithm, on the registers `V` (R192, R193). -/
def roundOf : Alg → Nat → Word → Vector Word 8 → Vector Word 8
  | .sha1 => round1
  | .sha256 => round256

theorem roundVars_eq (a : Alg) (s : State) :
    roundVars a s = roundOf a s.t.toNat (schedWord s.w s.t.toNat) s.v := by
  cases a <;> rfl

/-- The rounds `t` to `t + n - 1`, with the schedule `w`. -/
def roundsFrom (a : Alg) (w : Nat → Word) (t n : Nat) (v : Vector Word 8) : Vector Word 8 :=
  (List.range' t n).foldl (fun v t => roundOf a t (w t) v) v

theorem roundsFrom_succ (a : Alg) (w : Nat → Word) (t n : Nat) (v : Vector Word 8) :
    roundsFrom a w t (n + 1) v = roundsFrom a w (t + 1) n (roundOf a t (w t) v) := by
  rw [roundsFrom, List.range'_succ, List.foldl_cons]
  rfl

/-- From index `T` of ROUND to FOLD. -/
theorem round_run {a : Alg} (n : Nat) :
    ∀ {s : State}, s.free → s.st = .processing → s.alg = a → s.ph = .round → s.t.toNat + (n + 1) = Config.nr a →
      ∃ s', runSteps (n + 1) s = .next s' ∧ s'.ph = .fold ∧
        s'.v = roundsFrom a (schedWord s.w) s.t.toNat (n + 1) s.v ∧ onlyWrites [.v, .t, .ph] s s' := by
  induction n with
  | zero =>
    intro s hf hp ha hph ht
    subst ha
    obtain ⟨s', he, hv, hlast, -, hfr⟩ := exec_round_updates_vars s.alg (s := s) rfl (by omega)
    exact ⟨s', runSteps_micro hf hp (hph ▸ he) 0, (hlast (by omega)).1, hv.trans (roundVars_eq s.alg s), hfr⟩
  | succ n ih =>
    intro s hf hp ha hph ht
    subst ha
    obtain ⟨u, he, hv, -, hmore, hfr⟩ := exec_round_updates_vars s.alg (s := s) rfl (by omega)
    obtain ⟨htu, hphu⟩ := hmore (by omega)
    obtain ⟨s', hrun, hfold, hall, hfr'⟩ := ih (free_of_frame hf hfr) ((hfr.1 .st (by decide)).trans hp)
      (hfr.1 .alg (by decide)) (hphu.trans hph) (by omega)
    have hw : u.w = s.w := hfr.1 .w (by decide)
    refine ⟨s', (runSteps_micro hf hp (hph ▸ he) (n + 1)).trans hrun, hfold, ?_, onlyWrites_trans hfr hfr'⟩
    rw [hall, hw, htu, hv, roundVars_eq, roundsFrom_succ s.alg (schedWord s.w) s.t.toNat]

/-- From LOAD to FOLD: all rounds, on a copy of the hash state. -/
theorem compress_run {s : State} (hf : s.free) (hp : s.st = .processing) (hph : s.ph = .load) :
    ∃ s', runSteps (1 + Config.nr s.alg) s = .next s' ∧ s'.ph = .fold ∧
      s'.v = roundsFrom s.alg (schedWord s.w) 0 (Config.nr s.alg) (loadVars (Config.nh s.alg) s).v ∧
      onlyWrites [.v, .t, .ph] s s' := by
  have he : exec (microOp s.alg .load) s = .next (loadVars (Config.nh s.alg) s) := by cases s.alg <;> rfl
  have hfr := (exec_micro_frame he).1
  have h0 : Config.nr s.alg - 1 + 1 = Config.nr s.alg := by cases s.alg <;> rfl
  have ht : (loadVars (Config.nh s.alg) s).t.toNat = 0 := rfl
  obtain ⟨s', hrun, hfold, hv, hfr'⟩ := round_run (a := s.alg) (n := Config.nr s.alg - 1) (free_of_frame hf hfr) hp rfl
    rfl (by rw [ht, h0, Nat.zero_add])
  rw [ht, h0] at hv
  rw [h0] at hrun
  refine ⟨s', ?_, hfold, hv, onlyWrites_trans hfr hfr'⟩
  rw [Nat.add_comm, runSteps_micro hf hp (hph ▸ he), hrun]

/-! ### The compression functions -/

/-- The five registers of SHA-1. -/
def fiveOf (v : Vector Word 8) : Five := ⟨v[0], v[1], v[2], v[3], v[4]⟩

/-- The eight registers of SHA-256. -/
def eightOf (v : Vector Word 8) : Eight := ⟨v[0], v[1], v[2], v[3], v[4], v[5], v[6], v[7]⟩

/-- A SHA-1 round is the loop body of `comp1`. -/
theorem fiveOf_round1 {ws : List Word} {t : Nat} {x : Word} (hx : x = ws.getD t 0) (v : Vector Word 8) :
    fiveOf (round1 t x v) = compBody1 ws (fiveOf v) t := by
  subst hx; rfl

/-- A SHA-256 round is the loop body of `comp256`. -/
theorem eightOf_round256 {ws : List Word} {t : Nat} {x : Word} (hx : x = ws.getD t 0) (v : Vector Word 8) :
    eightOf (round256 t x v) = compBody256 ws (eightOf v) t := by
  subst hx; rfl

/-- The rounds of SHA-1 with a schedule are the loop of `comp1`. -/
theorem fiveOf_roundsFrom {w : Nat → Word} {ws : List Word} (n : Nat) : ∀ (t : Nat) (v : Vector Word 8),
    (∀ i, i < t + n → w i = ws.getD i 0) →
      fiveOf (roundsFrom .sha1 w t n v) = (List.range' t n).foldl (compBody1 ws) (fiveOf v) := by
  induction n with
  | zero => intro t v _; rfl
  | succ n ih =>
    intro t v hw
    rw [roundsFrom_succ, ih _ _ fun i hi => hw i (by omega), List.range'_succ, List.foldl_cons]
    exact congrArg (List.foldl _ · _) (fiveOf_round1 (hw t (by omega)) v)

/-- The rounds of SHA-256 with a schedule are the loop of `comp256`. -/
theorem eightOf_roundsFrom {w : Nat → Word} {ws : List Word} (n : Nat) : ∀ (t : Nat) (v : Vector Word 8),
    (∀ i, i < t + n → w i = ws.getD i 0) →
      eightOf (roundsFrom .sha256 w t n v) = (List.range' t n).foldl (compBody256 ws) (eightOf v) := by
  induction n with
  | zero => intro t v _; rfl
  | succ n ih =>
    intro t v hw
    rw [roundsFrom_succ, ih _ _ fun i hi => hw i (by omega), List.range'_succ, List.foldl_cons]
    exact congrArg (List.foldl _ · _) (eightOf_round256 (hw t (by omega)) v)

/-- All rounds of SHA-1 are `comp1` (R195). -/
theorem comp1_eq {w : Nat → Word} {ws : List Word} (hw : ∀ i, i < 80 → w i = ws.getD i 0) (v : Vector Word 8) :
    comp1 (fiveOf v) ws = fiveOf (roundsFrom .sha1 w 0 80 v) := by
  rw [fiveOf_roundsFrom 80 0 v fun i hi => hw i (by omega), comp1, List.range_eq_range']

/-- All rounds of SHA-256 are `comp256` (R195). -/
theorem comp256_eq {w : Nat → Word} {ws : List Word} (hw : ∀ i, i < 64 → w i = ws.getD i 0) (v : Vector Word 8) :
    comp256 (eightOf v) ws = eightOf (roundsFrom .sha256 w 0 64 v) := by
  rw [eightOf_roundsFrom 64 0 v fun i hi => hw i (by omega), comp256, List.range_eq_range']

/-- The schedule registers as a list. -/
theorem schedWord_eq_getD (w : Vector Word 80) (i : Nat) : schedWord w i = w.toList.getD i 0 := by
  simp [schedWord, List.getD_eq_getElem?_getD]

theorem getD_take {ws : List Word} {n i : Nat} (h : i < n) : (ws.take n).getD i 0 = ws.getD i 0 := by
  simp only [List.getD_eq_getElem?_getD, List.getElem?_take_of_lt h]

/-- The working variables start as the five words of the hash state (R190). -/
theorem fiveOf_loadVars (s : State) : fiveOf (loadVars 5 s).v = fiveOf s.h := by
  simp [fiveOf, loadVars]

/-- The working variables start as the hash state (R191). -/
theorem loadVars_eight_v (s : State) : (loadVars 8 s).v = s.h := by
  ext i hi
  simp [loadVars]

end Sys2Proof.Machine

namespace Sys2Proof.Proofs

open Sys2Proof.Machine

/-- Settles O37, by induction over the expansion: the schedule registers agree with the grown schedule up to `T`. -/
theorem scheduleIsBuiltFromTheBlock : Obligations.ScheduleIsBuiltFromTheBlock := by
  intro s hf hp hph
  obtain ⟨s', hrun, hload, hw, hfr⟩ := schedule_run hf hp hph
  refine ⟨s', hrun, hload, fun t ht => ?_, hfr⟩
  have h := hw t ht
  rw [schedWord_eq _ _ t.isLt] at h
  exact h

/-- Settles O42, by induction over the rounds: the working variables are those of the loop of `comp1` or `comp256`. -/
theorem roundsComputeTheCompression : Obligations.RoundsComputeTheCompression := by
  intro s hf hp hph
  obtain ⟨s', hrun, hfold, hv, hfr⟩ := compress_run hf hp hph
  refine ⟨s', hrun, hfold, fun ha => ?_, fun ha => ?_, hfr⟩
  · rw [ha] at hv
    have hw (i : Nat) (_ : i < 80) : schedWord s.w i = s.w.toList.getD i 0 := schedWord_eq_getD s.w i
    show comp1 (fiveOf s.h) s.w.toList = fiveOf s'.v
    rw [← fiveOf_loadVars, comp1_eq hw, hv]
    rfl
  · rw [ha] at hv
    have hw (i : Nat) (hi : i < 64) : schedWord s.w i = (s.w.toList.take 64).getD i 0 := by
      rw [schedWord_eq_getD, getD_take hi]
    show comp256 (eightOf s.h) (s.w.toList.take 64) = eightOf s'.v
    rw [comp256_eq hw, hv, ← loadVars_eight_v]
    rfl

end Sys2Proof.Proofs

/-! The whole operation (44_driver.md R218 to R223): the free run of one block, of all blocks, and of the operation,
which ends in DONE with the digest of the message. -/

namespace Sys2Proof.Machine

/-! ### The hash state in the registers -/

/-- The registers `H` after the first `n` blocks of a message (R221, R222). -/
def hashOf (a : Alg) (m : List Byte) (n : Nat) : Vector Word 8 :=
  match a with
  | .sha1 => (hashAfter1 m n).toH
  | .sha256 => (hashAfter256 m n).toH

/-- The operation starts from the initial values (R213, R214). -/
theorem initDriver_h (a : Alg) (m : List Byte) (s : State) : (initDriver (initTable a) s).h = hashOf a m 0 := by
  cases a <;> rfl

/-- The fold of SHA-1 adds five words; the others stay zero (R215). -/
theorem foldHash_five {s : State} {x : Five} (h : s.h = x.toH) : (foldHash 5 s).h = (x.add (fiveOf s.v)).toH := by
  ext i hi
  rw [show (foldHash 5 s).h[i] = _ from foldHash_h_get 5 s ⟨i, hi⟩, h]
  interval_cases i <;> rfl

/-- The fold of SHA-256 adds eight words (R216). -/
theorem foldHash_eight {s : State} {x : Eight} (h : s.h = x.toH) : (foldHash 8 s).h = (x.add (eightOf s.v)).toH := by
  ext i hi
  rw [show (foldHash 8 s).h[i] = _ from foldHash_h_get 8 s ⟨i, hi⟩, h]
  interval_cases i <;> rfl

/-- What the rounds compute from the schedule of piece `n`, folded, is the hash state after `n + 1` blocks (R221). -/
theorem foldHash_hashOf {a : Alg} {m : List Byte} {n : Nat} {s u : State} {w : Nat → Word} (hs : s.h = hashOf a m n)
    (hu : u.h = s.h) (hw : ∀ i, i < Config.nw a → w i = (scheduleOf a (piece (pad m) n)).getD i 0)
    (hv : u.v = roundsFrom a w 0 (Config.nr a) (loadVars (Config.nh a) s).v) :
    (foldHash (Config.nh a) u).h = hashOf a m (n + 1) := by
  cases a with
  | sha1 =>
    have hx : fiveOf s.h = hashAfter1 m n := by rw [hs]; rfl
    have hc : comp1 (fiveOf s.h) (sched1 (piece (pad m) n)) = fiveOf u.v := by
      rw [hv, ← fiveOf_loadVars]
      exact comp1_eq hw _
    show (foldHash 5 u).h = ((hashAfter1 m n).add (comp1 (hashAfter1 m n) (sched1 (piece (pad m) n)))).toH
    rw [foldHash_five (hu.trans hs), ← hc, hx]
  | sha256 =>
    have hx : eightOf s.h = hashAfter256 m n := by rw [hs]; rfl
    have hc : comp256 (eightOf s.h) (sched256 (piece (pad m) n)) = eightOf u.v := by
      rw [hv, ← loadVars_eight_v]
      exact comp256_eq hw _
    show (foldHash 8 u).h = ((hashAfter256 m n).add (comp256 (hashAfter256 m n) (sched256 (piece (pad m) n)))).toH
    rw [foldHash_eight (hu.trans hs), ← hc, hx]

/-! ### One block -/

/-- A free machine about to build block `j` of the message `m`. -/
structure State.AtBlock (s : State) (a : Alg) (m : List Byte) (j : Nat) : Prop where
  free : s.free
  processing : s.st = .processing
  alg : s.alg = a
  phase : s.ph = .block
  message : s.holds m
  index : j < blockCount s.len.toNat
  cursor : s.cur.toNat = cursorAt s.len.toNat j
  hash : s.h = hashOf a m j

/-- What one block writes, up to its `DRV.NEXT`. -/
def blockRegs : List Reg := [.h, .v, .w, .blk, .cns, .fin, .t, .ph]

/-- What an operation writes before its last `DRV.NEXT`. -/
def operationRegs : List Reg := .cur :: blockRegs

/-- From PARSE to FOLD: schedule and rounds, ready to be folded into the hash state. -/
theorem compute_run {s : State} {m : List Byte} {n : Nat} (hf : s.free) (hp : s.st = .processing) (hph : s.ph = .parse)
    (hblk : s.blk.toList = piece (pad m) n) (hh : s.h = hashOf s.alg m n) :
    ∃ u, runSteps (1 + (Config.nw s.alg - 16) + (1 + Config.nr s.alg)) s = .next u ∧ u.ph = .fold ∧
      (foldHash (Config.nh s.alg) u).h = hashOf s.alg m (n + 1) ∧ onlyWrites [.v, .w, .t, .ph] s u := by
  obtain ⟨v, hrun, hload, hw, hfr⟩ := schedule_run hf hp hph
  have halg : v.alg = s.alg := hfr.1 .alg (by decide)
  have hvh : v.h = s.h := hfr.1 .h (by decide)
  obtain ⟨u, hrun', hfold, hv, hfr'⟩ :=
    compress_run (free_of_frame hf hfr) ((hfr.1 .st (by decide)).trans hp) hload
  rw [halg] at hrun' hv
  rw [hblk] at hw
  exact ⟨u, (runSteps_add _ _ hrun).trans hrun', hfold,
    foldHash_hashOf (hvh.trans hh) (hfr'.1 .h (by decide)) hw hv,
    onlyWrites_trans (onlyWrites_mono (by decide) hfr) (onlyWrites_mono (by decide) hfr')⟩

/-- From BLOCK to NEXT: the block is folded into the hash state. -/
theorem block_run {s : State} {a : Alg} {m : List Byte} {j : Nat} (h : s.AtBlock a m j) :
    ∃ u, runSteps (stepsPerBlock a - 1) s = .next u ∧ u.ph = .next ∧ u.h = hashOf a m (j + 1) ∧
      (u.fin = true ↔ j + 1 = blockCount s.len.toNat) ∧
      (u.fin = false → u.cur.toNat + u.cns.toNat = cursorAt s.len.toNat (j + 1)) ∧ onlyWrites blockRegs s u := by
  obtain ⟨hf, hp, rfl, hph, hm, hj, hcur, hh⟩ := h
  obtain ⟨b, heb, hblk, hfin, hnext, hphb, hwb⟩ := exec_block_at s.alg hm hj hcur
  have heb' : exec (microOp s.alg s.ph) s = .next b := by rw [hph]; cases s.alg <;> exact heb
  have hfb := free_of_frame hf hwb
  have hpb : b.st = .processing := (hwb.1 .st (by decide)).trans hp
  have halgb : b.alg = s.alg := hwb.1 .alg (by decide)
  have hhb : b.h = hashOf b.alg m j := by rw [halgb, ← hh]; exact hwb.1 .h (by decide)
  obtain ⟨c, hrun, hphc, hhc, hwc⟩ := compute_run hfb hpb hphb hblk hhb
  rw [halgb] at hrun hhc
  have hec : exec (microOp c.alg c.ph) c = .next (foldHash (Config.nh s.alg) c) := by
    rw [hphc, show c.alg = s.alg from (hwc.1 .alg (by decide)).trans halgb]
    cases s.alg <;> rfl
  have hwd := (exec_micro_frame (hphc ▸ hec)).1
  have hfinc : c.fin = b.fin := hwc.1 .fin (by decide)
  have hws := onlyWrites_trans (rs := blockRegs) (onlyWrites_mono (by decide) hwb)
    (onlyWrites_trans (onlyWrites_mono (by decide) hwc) (onlyWrites_mono (by decide) hwd))
  refine ⟨foldHash (Config.nh s.alg) c, ?_, rfl, hhc, hfinc ▸ hfin, fun hf0 => ?_, hws⟩
  · have hsteps : stepsPerBlock s.alg - 1 = 1 + (Config.nw s.alg - 16) + (1 + Config.nr s.alg) + 1 + 1 := by
      cases s.alg <;> rfl
    rw [hsteps, runSteps_micro hf hp heb', runSteps_add _ _ hrun,
      runSteps_micro (free_of_frame hfb hwc) ((hwc.1 .st (by decide)).trans hpb) hec, runSteps_zero]
  · rw [foldHash_cur, foldHash_cns, show c.cur = b.cur from hwc.1 .cur (by decide),
      show c.cns = b.cns from hwc.1 .cns (by decide)]
    exact hnext (hfinc ▸ hf0)

/-! ### All blocks -/

/-- A frame that leaves `LEN` leaves the message. -/
theorem holds_of_frame {rs : List Reg} {s s' : State} {m : List Byte} (h : s.holds m) (hw : onlyWrites rs s s')
    (hl : Reg.len ∉ rs) : s'.holds m := by
  have hlen : s'.len = s.len := hw.1 .len hl
  unfold State.holds at h ⊢
  rw [hlen, ← h]
  exact readBytes_congr fun i _ => hw.2.2.2.2 (0 + i)

/-- A block that is not the last, with its `DRV.NEXT`, leads to the next block. -/
theorem block_to_block {s : State} {a : Alg} {m : List Byte} {j : Nat} (h : s.AtBlock a m j)
    (hj : j + 1 < blockCount s.len.toNat) :
    ∃ u, runSteps (stepsPerBlock a) s = .next u ∧ u.AtBlock a m (j + 1) ∧ onlyWrites operationRegs s u := by
  obtain ⟨u, hrun, hph, hh, hfin, hnext, hw⟩ := block_run h
  have hlen : u.len = s.len := hw.1 .len (by decide)
  have hf : u.fin = false := by
    rw [← Bool.not_eq_true, hfin]
    omega
  have hfree := free_of_frame h.free hw
  have hp : u.st = .processing := (hw.1 .st (by decide)).trans h.processing
  have he : exec (microOp u.alg u.ph) u = .next { advanceCursor u with ph := .block } := by
    rw [hph]
    cases u.alg <;> simp [microOp, exec, execDrvNext, hf]
  have hw' : onlyWrites operationRegs u { advanceCursor u with ph := .block } :=
    ⟨fun r hr => by cases r <;> simp [operationRegs, blockRegs, Reg.same] at hr ⊢, by simp⟩
  have hws := onlyWrites_trans (onlyWrites_mono (by decide) hw) hw'
  have hcur : (advanceCursor u).cur.toNat = cursorAt s.len.toNat (j + 1) := by
    rw [advanceCursor_toNat, hnext hf]
    exact Nat.mod_eq_of_lt (Nat.lt_of_le_of_lt (Nat.min_le_right _ _) s.len.isLt)
  refine ⟨_, ?_, ⟨free_of_frame hfree hw', hp, (hw.1 .alg (by decide)).trans h.alg, rfl,
    holds_of_frame h.message hws (by decide), ?_, ?_, hh⟩, hws⟩
  · have hS : stepsPerBlock a = stepsPerBlock a - 1 + 1 := by cases a <;> rfl
    rw [hS, runSteps_add _ _ hrun, runSteps_micro hfree hp he, runSteps_zero]
  · show j + 1 < blockCount u.len.toNat
    rwa [hlen]
  · show (advanceCursor u).cur.toNat = cursorAt u.len.toNat (j + 1)
    rwa [hlen]

/-- From block `j` to the last `DRV.NEXT`: the hash state is that of the whole message. -/
theorem blocks_run {a : Alg} {m : List Byte} (n : Nat) : ∀ {s : State} {j : Nat}, s.AtBlock a m j →
    j + (n + 1) = blockCount s.len.toNat →
    ∃ u, runSteps (n * stepsPerBlock a + (stepsPerBlock a - 1)) s = .next u ∧ u.ph = .next ∧ u.fin = true ∧
      u.h = hashOf a m (blockCount s.len.toNat) ∧ onlyWrites operationRegs s u := by
  induction n with
  | zero =>
    intro s j h hj
    obtain ⟨u, hrun, hph, hh, hfin, -, hw⟩ := block_run h
    exact ⟨u, by simpa using hrun, hph, hfin.mpr hj, hj ▸ hh, onlyWrites_mono (by decide) hw⟩
  | succ n ih =>
    intro s j h hj
    obtain ⟨u, hrun, hu, hw⟩ := block_to_block h (by omega)
    have hlen : u.len = s.len := hw.1 .len (by decide)
    obtain ⟨v, hrun', hph, hfin, hh, hw'⟩ := ih hu (by rw [hlen]; omega)
    refine ⟨v, ?_, hph, hfin, hlen ▸ hh, onlyWrites_trans hw hw'⟩
    rw [Nat.succ_mul, Nat.add_comm (n * stepsPerBlock a), Nat.add_assoc, runSteps_add _ _ hrun, hrun']

/-! ### The operation -/

/-- DRV.INIT leads to block 0. -/
theorem atBlock_init {s : State} {m : List Byte} (hf : s.free) (hp : s.st = .processing) (hph : s.ph = .init)
    (hm : s.holds m) :
    ∃ u, exec (microOp s.alg s.ph) s = .next u ∧ u.AtBlock s.alg m 0 ∧ onlyWrites operationRegs s u := by
  have he : exec (microOp s.alg .init) s = .next (initDriver (initTable s.alg) s) := by cases s.alg <;> rfl
  have hw := onlyWrites_mono (rs' := operationRegs) (by decide) (exec_micro_frame he).1
  refine ⟨_, hph ▸ he, ⟨free_of_frame hf hw, hp, rfl, rfl, holds_of_frame hm hw (by decide), ?_, ?_,
    initDriver_h s.alg m s⟩, hw⟩
  · show 0 < blockCount s.len.toNat
    unfold blockCount; omega
  · show 0 = cursorAt s.len.toNat 0
    simp [cursorAt]

/-- A free operation is PROCESSING for `1 + NB x S` steps and then in DONE, with the digest in `H` unless the message
was changed (R218, R222; log 6). -/
theorem operation_run {s : State} {m : List Byte} (hf : s.free) (hp : s.st = .processing) (hph : s.ph = .init)
    (hm : s.holds m) :
    ∃ t, runSteps (operationSteps s.alg s.len.toNat) s = .next t ∧
      (∀ k, k < operationSteps s.alg s.len.toNat → ∃ u, runSteps k s = .next u ∧ u.st = .processing) ∧ t.st = .done ∧
      t.alg = s.alg ∧ t.len = s.len ∧ (s.msgChanged = false → t.h = hashOf s.alg m (blockCount s.len.toNat)) := by
  obtain ⟨b, he, hb, hwb⟩ := atBlock_init hf hp hph hm
  have hlenb : b.len = s.len := hwb.1 .len (by decide)
  have hNB : 0 < blockCount s.len.toNat := by unfold blockCount; omega
  obtain ⟨u, hrun, hphu, hfin, hh, hwu⟩ := blocks_run (blockCount s.len.toNat - 1) hb (by rw [hlenb]; omega)
  have hw := onlyWrites_trans hwb hwu
  have hfu := free_of_frame hf hw
  have hpu : u.st = .processing := (hw.1 .st (by decide)).trans hp
  have hN : operationSteps s.alg s.len.toNat =
      (blockCount s.len.toNat - 1) * stepsPerBlock s.alg + (stepsPerBlock s.alg - 1) + 1 + 1 := by
    have hS : 0 < stepsPerBlock s.alg := by cases s.alg <;> decide
    have hmul := Nat.succ_mul (blockCount s.len.toNat - 1) (stepsPerBlock s.alg)
    rw [Nat.succ_eq_add_one, Nat.sub_add_cancel hNB] at hmul
    rw [operationSteps]
    omega
  have hrun' := (runSteps_micro hf hp he _).trans hrun
  have hmark : u.msgChanged = s.msgChanged := (runSteps_free hf _ hrun').2
  have hend : exec (microOp u.alg u.ph) u = .next (advanceCursor u).finish := by
    rw [hphu]
    cases u.alg <;> simp [microOp, exec, execDrvNext, hfin]
  refine ⟨(advanceCursor u).finish, ?_, fun k hk => ?_, finish_st _, ?_, ?_, fun hc => ?_⟩
  · rw [hN, runSteps_add _ _ hrun', runSteps_micro hfu hpu hend 0, runSteps_zero]
  · rw [hN] at hk
    obtain hk | rfl := Nat.lt_or_eq_of_le (Nat.le_of_lt_succ hk)
    · exact processing_throughout hf _ hrun' hpu k hk
    · exact ⟨u, hrun', hpu⟩
  · rw [finish_alg, advanceCursor_alg]
    exact hw.1 .alg (by decide)
  · rw [finish_len, advanceCursor_len]
    exact hw.1 .len (by decide)
  · rw [finish_h, if_neg (by rw [advanceCursor_msgChanged, hmark, hc]; decide), advanceCursor_h, hh, hlenb]

/-- A readable message is some list of bytes. -/
theorem holds_of_messageReadable {s : State} (h : s.messageReadable) : ∃ m, s.holds m :=
  readBytes_isSome s.msg s.len.toNat 0 fun i hi => by rw [Nat.zero_add]; exact h i hi

/-- An operation with harmless turns pending ends as its free run does (R222). -/
theorem operation_harmless_run {s : State} {m : List Byte} (hr : s.inReset = false) (hp : s.st = .processing)
    (hph : s.ph = .init) (hm : s.holds m) (hc : s.msgChanged = false)
    (hx : ∀ x ∈ s.turns, x.harmless s.len = true) :
    ∃ k t, operationSteps s.alg s.len.toNat ≤ k ∧ k ≤ operationSteps s.alg s.len.toNat + s.turns.length ∧
      runSteps k s = .next t ∧ (∀ j, j < k → ∃ u, runSteps j s = .next u ∧ u.st = .processing) ∧
      t.inReset = false ∧ t.st = .done ∧ t.alg = s.alg ∧ t.len = s.len ∧
      t.h = hashOf s.alg m (blockCount s.len.toNat) := by
  have hfree : (s.withHostSide s.msg [] s.rdata).free := ⟨hr, rfl⟩
  have halike : s.Alike (s.withHostSide s.msg [] s.rdata) := ⟨rfl, fun _ _ => rfl⟩
  obtain ⟨g, hrun, hproc, hd, halg, hlen, hh⟩ := operation_run hfree hp hph hm
  obtain ⟨k, t, h1, h2, ht, hg, hj⟩ := harmless_run _ s.turns rfl halike hfree hx hrun hd hproc
  have hgr := (runSteps_free hfree _ hrun).1.1
  exact ⟨k, t, h1, h2, ht, hj, hg.inReset.symm.trans hgr, (hg.same .st).symm.trans hd, (hg.same .alg).symm.trans halg,
    (hg.same .len).symm.trans hlen, (hg.same .h).symm.trans (hh hc)⟩

/-- A command with harmless turns behind it delivers the digest of its algorithm (R210, R211, R222). -/
theorem command_run {s : State} {m : List Byte} {a : Alg} (ha : s.acceptsCommand a) (hm : s.holds m)
    (hx : ∀ x ∈ s.turns.tail, x.harmless s.len = true) :
    ∃ k t, 1 + operationSteps a s.len.toNat ≤ k ∧ k ≤ 1 + operationSteps a s.len.toNat + s.turns.tail.length ∧
      (∀ j, 1 ≤ j → j < k → ∃ u, runSteps j s = .next u ∧ u.st = .processing) ∧ runSteps k s = .next t ∧
      t.st = .done ∧ t.alg = a ∧ t.len = s.len ∧ t.h = hashOf a m (blockCount m.length) ∧
      ∀ i : Fin 8, readCsr t (4 + i.val) = (hashOf a m (blockCount m.length))[i] := by
  have hstep := step_acceptsCommand ha
  obtain ⟨k, t, h1, h2, hrun, hproc, hr, hd, halg, hlen, hh⟩ :=
    operation_harmless_run (s := s.popTurn.accept a) (m := m) ha.1 rfl rfl hm rfl hx
  replace hh : t.h = hashOf a m (blockCount m.length) := by rw [length_of_holds hm]; exact hh
  refine ⟨k + 1, t, ?_, ?_, fun j hj1 hjk => ?_, (runSteps_succ hstep k).trans hrun, hd, halg, hlen, hh, fun i => ?_⟩
  · rw [Nat.add_comm]; exact Nat.succ_le_succ h1
  · rw [Nat.add_assoc, Nat.add_comm 1]; exact Nat.succ_le_succ h2
  · obtain ⟨j, rfl⟩ := Nat.exists_eq_add_of_le' hj1
    obtain ⟨u, hu, hup⟩ := hproc j (by omega)
    exact ⟨u, (runSteps_succ hstep j).trans hu, hup⟩
  · rw [readCsr_digest hr, if_pos hd, hh]

end Sys2Proof.Machine

namespace Sys2Proof.Proofs

open Sys2Proof.Machine

/-- Settles O56: the free run of the operation, over whatever bytes the message has. -/
theorem operationTakesExactlyTheStatedSteps : Obligations.OperationTakesExactlyTheStatedSteps := by
  intro s hf hp hph hr
  obtain ⟨m, hm⟩ := holds_of_messageReadable hr
  obtain ⟨t, hrun, hproc, hd, -⟩ := operation_run hf hp hph hm
  exact ⟨hproc, t, hrun, hd⟩

/-- Settles O57, by induction over the blocks of the free run and over the turns that follow the command. -/
theorem sha1CommandDeliversTheDigest : Obligations.Sha1CommandDeliversTheDigest := by
  intro s m ts hr hp ht hm hx
  have h := command_run (a := .sha1) ⟨hr, hp, ts, ht⟩ hm (by rwa [ht])
  rwa [ht, List.tail_cons] at h

/-- Settles O58, as O57. -/
theorem sha256CommandDeliversTheDigest : Obligations.Sha256CommandDeliversTheDigest := by
  intro s m ts hr hp ht hm hx
  have h := command_run (a := .sha256) ⟨hr, hp, ts, ht⟩ hm (by rwa [ht])
  rwa [ht, List.tail_cons] at h

/-- Settles O59: each of the two operations ends with the digest of the one message that both hold. -/
theorem digestDependsOnlyOnTheMessage : Obligations.DigestDependsOnlyOnTheMessage := by
  intro s₁ s₂ hr₁ hr₂ hx₁ hx₂ hp₁ hp₂ hph₁ hph₂ hc₁ hc₂ halg hlen hread hsame
  obtain ⟨m, hm₁⟩ := holds_of_messageReadable hread
  have hm₂ : s₂.holds m := by
    unfold State.holds
    rw [← hlen, ← hm₁]
    exact readBytes_congr fun i hi => (hsame (0 + i) (by omega)).symm
  obtain ⟨k₁, t₁, -, -, hrun₁, hj₁, -, hd₁, -, -, hh₁⟩ := operation_harmless_run hr₁ hp₁ hph₁ hm₁ hc₁ hx₁
  obtain ⟨k₂, t₂, -, -, hrun₂, hj₂, -, hd₂, -, -, hh₂⟩ := operation_harmless_run hr₂ hp₂ hph₂ hm₂ hc₂ hx₂
  exact ⟨k₁, k₂, t₁, t₂, hrun₁, hrun₂, hj₁, hj₂, hd₁, hd₂, by rw [hh₁, hh₂, halg, hlen]⟩

end Sys2Proof.Proofs

/-! The host programs (30_encoding.md R105 to R107, 70_reset_and_hazards.md R283): the stores of the message, the
writes of `LEN`, the command and the WAIT return no data, and the reads that follow return the digest. -/

namespace Sys2Proof.Machine

/-! ### Runs in which no register is read -/

/-- `k` steps lead from `s` to `s'` and none of them is a register read. -/
def runsSilently (k : Nat) (s s' : State) : Prop := runSteps k s = .next s' ∧ readData k s = []

theorem runsSilently_trans {j k : Nat} {a b c : State} (h1 : runsSilently j a b) (h2 : runsSilently k b c) :
    runsSilently (j + k) a c :=
  ⟨(runSteps_add j k h1.1).trans h2.1, by rw [readData_add j k h1.1, h1.2, h2.2]; rfl⟩

theorem runsSilently_one {s s' : State} (h : step s = .next s') (hr : s.readsRegister = false) : runsSilently 1 s s' :=
  ⟨runSteps_one h, by rw [readData_one h, hr]; rfl⟩

/-! ### The lines of a program -/

/-- A write of `LEN_LO` is one step (R38). -/
theorem step_write_lenLo {s : State} {v : Word} {rest : List Turn} (hr : s.inReset = false) (hp : s.st ≠ .processing)
    (h : s.turns = .write 2 v :: rest) : step s = .next { s with len := withLenLo s.len v, turns := rest } := by
  rw [step_write_eq h (by decide)]
  simp [writeCsr, hr, hp]

/-- A write of `LEN_HI` is one step (R39). -/
theorem step_write_lenHi {s : State} {v : Word} {rest : List Turn} (hr : s.inReset = false) (hp : s.st ≠ .processing)
    (h : s.turns = .write 3 v :: rest) : step s = .next { s with len := withLenHi s.len v, turns := rest } := by
  rw [step_write_eq h (by decide)]
  simp [writeCsr, hr, hp]

/-- Both halves of a length are the length (R102). -/
theorem withLen_halves (l n : Length) : withLenHi (withLenLo l (lenLo n)) (lenHi n) = n := by
  apply BitVec.eq_of_toNat_eq
  have := n.isLt
  rw [withLenHi_toNat, withLenLo_toNat, lenLo_toNat, lenHi_toNat]
  omega

/-- `SETLEN n` (R106). -/
theorem setLen_run {s : State} {n : Length} {rest : List Turn} (hr : s.inReset = false) (hp : s.st ≠ .processing)
    (ht : s.turns = setLenTurns n ++ rest) : runsSilently 2 s { s with len := n, turns := rest } := by
  have h1 := runsSilently_one (step_write_lenLo hr hp ht) (by simp [State.readsRegister, ht, setLenTurns])
  have h2 := runsSilently_one
    (step_write_lenHi (s := { s with len := withLenLo s.len (lenLo n), turns := .write 3 (lenHi n) :: rest }) hr hp rfl)
    rfl
  rw [withLen_halves] at h2
  exact runsSilently_trans h1 h2

/-- `MSG` and `SETLEN n`: the message stands in memory, and nothing else but `LEN` has changed. -/
theorem message_run {s : State} {m : List Byte} {rest : List Turn} (hr : s.inReset = false) (hp : s.st ≠ .processing)
    (hm : m.length < 2 ^ 61) (ht : s.turns = msgTurns m ++ (setLenTurns (BitVec.ofNat 61 m.length) ++ rest)) :
    ∃ u, runsSilently (m.length + 2) s u ∧ u.turns = rest ∧ u.inReset = false ∧ u.st ≠ .processing ∧ u.holds m ∧
      u.len.toNat = m.length := by
  obtain ⟨v, hrun, hdata, hv, hread, -⟩ := store_run m (setLenTurns (BitVec.ofNat 61 m.length) ++ rest) (s := s) 0 hp
    (by omega) (by simpa [msgTurns] using ht)
  have hvr : v.inReset = false := by rw [hv]; exact hr
  have hvp : v.st ≠ .processing := by rw [hv]; exact hp
  have hlen : (BitVec.ofNat 61 m.length).toNat = m.length := by rw [BitVec.toNat_ofNat]; exact Nat.mod_eq_of_lt hm
  refine ⟨{ v with len := BitVec.ofNat 61 m.length, turns := rest },
    runsSilently_trans ⟨hrun, hdata⟩ (setLen_run hvr hvp (by rw [hv]; rfl)), rfl, hvr, hvp, ?_, hlen⟩
  exact (readBytes_eq_some_iff _ _ _ _).mpr ⟨hlen.symm, fun i hi => hread i (hlen ▸ hi)⟩

/-- `WAIT` ends when the host sees DONE (R105). -/
theorem step_wait_done {s : State} {rest : List Turn} (hr : s.inReset = false) (hd : s.st = .done)
    (ht : s.turns = .wait :: rest) : step s = .next (s.popTurn.hostRead 1) := by
  have hs : s.sequencerTurn := ⟨hr, .inr (.inr ⟨rest, ht⟩)⟩
  have hdone : s.seesDone = true := by simp [State.seesDone, done_eq, hd, hr]
  rw [step_sequencer_idle hs (by simp [hd])]
  simp [hostTurn, ht, hdone]

/-- A command and the `WAIT` for its end: the digest stands in `H`. -/
theorem command_wait_run {s : State} {m : List Byte} {a : Alg} {rest : List Turn} (ha : s.acceptsCommand a)
    (ht : s.turns.tail = .wait :: rest) (hm : s.holds m) :
    ∃ k t, runsSilently k s t ∧ t.turns = rest ∧ t.inReset = false ∧ t.st = .done ∧ t.len = s.len ∧
      t.h = hashOf a m (blockCount m.length) := by
  have h1 : runsSilently 1 s (s.popTurn.accept a) := by
    refine runsSilently_one (step_acceptsCommand ha) ?_
    obtain ⟨-, -, r, hw⟩ := ha
    simp [State.readsRegister, hw]
  have hfree : ((s.popTurn.accept a).withHostSide s.msg [] s.rdata).free := ⟨ha.1, rfl⟩
  have halike : (s.popTurn.accept a).Alike ((s.popTurn.accept a).withHostSide s.msg [] s.rdata) := ⟨rfl, fun _ _ => rfl⟩
  obtain ⟨g, hrun, hproc, hd, -, hlen, hh⟩ := operation_run hfree rfl rfl hm
  obtain ⟨u, hrun', hg, htu, hdata⟩ := wait_run _ rest ht halike hfree hrun hproc
  have hur : u.inReset = false := hg.inReset.symm.trans (runSteps_free hfree _ hrun).1.1
  have hud : u.st = .done := (hg.same .st).symm.trans hd
  have h3 := runsSilently_one (step_wait_done hur hud htu) (by simp [State.readsRegister, htu])
  refine ⟨_, _, runsSilently_trans h1 (runsSilently_trans ⟨hrun', hdata⟩ h3), by simp [htu], hur, hud,
    (hg.same .len).symm.trans hlen, ?_⟩
  rw [length_of_holds hm]
  exact (hg.same .h).symm.trans (hh rfl)

/-- Register reads return the registers one after the other, and change none. -/
theorem reads_run (regs : List Nat) : ∀ {s : State}, s.turns = regs.map .read →
    ∃ t, runSteps regs.length s = .next t ∧ t = s.withHostSide s.msg [] t.rdata ∧
      readData regs.length s = regs.map (readCsr s) := by
  induction regs with
  | nil =>
    intro s ht
    refine ⟨s, rfl, ?_, rfl⟩
    rw [← show s.turns = [] from ht]; rfl
  | cons r regs ih =>
    intro s ht
    have h1 := step_read ht
    obtain ⟨t, hrun, heq, hdata⟩ := ih (s := { s with turns := regs.map .read, rdata := readCsr s r }) rfl
    refine ⟨t, (runSteps_succ h1 _).trans hrun, heq, ?_⟩
    rw [List.length_cons, Nat.add_comm, readData_add 1 _ (runSteps_one h1), readData_one h1, hdata, List.map_cons]
    simp only [State.readsRegister, ht, List.map_cons, if_true]
    rfl

/-- The word that the host writes to `CTRL` for a command (R92, R93). -/
def commandWord : Alg → Word
  | .sha1 => 0x00000001
  | .sha256 => 0x00000003

/-- The turn that writes a command word is accepted in IDLE and DONE (R212). -/
theorem acceptsCommand_commandWord {s : State} {rest : List Turn} (a : Alg) (hr : s.inReset = false)
    (hp : s.st ≠ .processing) (ht : s.turns = .write 0 (commandWord a) :: rest) : s.acceptsCommand a := by
  refine ⟨hr, hp, rest, ?_⟩
  cases a <;> exact ht

/-- The whole program: stores, `SETLEN n`, command, `WAIT`, reads of the first `n` digest registers (R105 to R107). -/
theorem program_run {s : State} {m : List Byte} {a : Alg} {n : Nat} (hn : n ≤ 8) (hr : s.inReset = false)
    (hp : s.st ≠ .processing) (hm : m.length < 2 ^ 61)
    (ht : s.turns = msgTurns m ++ (setLenTurns (BitVec.ofNat 61 m.length) ++
      (.write 0 (commandWord a) :: .wait :: ((List.range n).map (4 + ·)).map .read))) :
    ∃ k t, runSteps k s = .next t ∧ t.turns = [] ∧ t.st = .done ∧ t.len.toNat = m.length ∧
      readData k s = (hashOf a m (blockCount m.length)).toList.take n := by
  obtain ⟨u, hu, htu, hur, hup, hum, hul⟩ := message_run hr hp hm ht
  obtain ⟨k, v, hv, htv, hvr, hvd, hvl, hvh⟩ :=
    command_wait_run (acceptsCommand_commandWord a hur hup htu) (by rw [htu]; rfl) hum
  obtain ⟨t, hrun, heq, hdata⟩ := reads_run _ htv
  have hsilent := runsSilently_trans hu hv
  refine ⟨_, t, (runSteps_add _ _ hsilent.1).trans hrun, by rw [heq]; rfl, by rw [heq]; exact hvd,
    by rw [heq]; exact hvl ▸ hul, ?_⟩
  rw [readData_add _ _ hsilent.1, hsilent.2, hdata, List.nil_append, ← hvh]
  refine List.ext_getElem (by simp [hn]) fun i hi _ => ?_
  have hi8 : i < 8 := by simp at hi; omega
  simp [readCsr_digest hvr ⟨i, hi8⟩, hvd]

end Sys2Proof.Machine

namespace Sys2Proof.Proofs

open Sys2Proof.Machine

/-- Settles O60: the two programs differ in the command and in how many digest registers they read. -/
theorem hostProgramsReadTheDigest : Obligations.HostProgramsReadTheDigest := by
  refine fun s m hr hp hm => ⟨fun ht => ?_, fun ht => ?_⟩
  · exact program_run (a := .sha1) (n := 5) (by decide) hr hp hm ht
  · obtain ⟨k, t, hrun, hturns, hd, hl, hdata⟩ :=
      program_run (a := .sha256) (n := 8) (by decide) hr hp hm ht
    exact ⟨k, t, hrun, hturns, hd, hl, by rw [hdata]; exact List.take_of_length_le (by simp)⟩

end Sys2Proof.Proofs
